-- ==== Sys2Proof/Word.lean ====
section
/-! DEFINITION. The bit vectors of the block: bit 0 of a value is its least significant bit, and every value is unsigned
unless a rule says otherwise (00_scope R9, R10). -/

namespace Sys2Proof

/-- Eight bits of the table's byte view (20_memory R51). -/
abbrev Byte := BitVec 8

/-- One 4-bit counter (20_memory R50). -/
abbrev Nibble := BitVec 4

/-- A table word, an item hash, a size or count register (00_scope R6: WORD_BITS, HASH_BITS, CNT_W). -/
abbrev Word := BitVec 64

/-- A command word, format C66 (30_encoding R84). -/
abbrev CmdWord := BitVec 66

/-- A response word, format RSP6 (30_encoding R88). -/
abbrev RspWord := BitVec 6

end Sys2Proof
end

