-- ==== Sys2Proof/Syntax.lean ====
section
/-! DEFINITION. The instructions: one constructor per row of spec/opcode_table.json (30_encoding R91). -/

namespace Sys2Proof

/-- The commands of the block (30_encoding R85). -/
inductive Instr where
  /-- INIT: `cap` is the declared maximum capacity, the signed integer that arg encodes (30_encoding R87). -/
  | init (cap : Int)
  /-- RECORD: `h` is the item's 64-bit raw hash, every value legal (30_encoding R86). -/
  | record (h : Word)
  /-- ESTIMATE: `h` is the item's 64-bit raw hash, every value legal (30_encoding R86). -/
  | estimate (h : Word)
  /-- RSVD3, the reserved operation code; `arg` is ignored (30_encoding R92, 43_commands R180). -/
  | rsvd3 (arg : Word)
deriving DecidableEq, Repr

end Sys2Proof
end

