-- ==== Sys2Proof/WellFormed.lean ====
section
/-! DEFINITION. Which terms of Instr stand for a command word. Hashes and the ignored operand are 64-bit vectors already;
only the capacity has a range to check. -/

namespace Sys2Proof

/-- A capacity that 64-bit two's complement can express, "range -2^63 to 2^63-1" (30_encoding R87). -/
def capEncodable (cap : Int) : Bool :=
  decide (-(2 ^ 63) ≤ cap) && decide (cap < 2 ^ 63)

/-- The instruction is the reading of some command word (30_encoding R86, R87). -/
def Instr.wellFormed (i : Instr) : Bool :=
  match i with
  | .init cap => capEncodable cap
  | .record _ => true
  | .estimate _ => true
  | .rsvd3 _ => true

end Sys2Proof
end

