-- ==== Sys2Proof/Decode.lean ====
section
/-! DEFINITION. The command word: its fields, its decoder (30_encoding R84 to R87, R91), after it the encoder, and the
assembler notation's mnemonics and pseudo-instructions (R95, R96). -/

namespace Sys2Proof

/-- `op`, bits 65:64 of the command word (30_encoding R84). -/
def opField (c : CmdWord) : BitVec 2 := c.extractLsb' 64 2

/-- `arg`, bits 63:0 of the command word (30_encoding R84). -/
def argField (c : CmdWord) : Word := c.extractLsb' 0 64

/-- The four operation codes (30_encoding R85). -/
def opInit : BitVec 2 := 0b00#2
def opRecord : BitVec 2 := 0b01#2
def opEstimate : BitVec 2 := 0b10#2
def opRsvd3 : BitVec 2 := 0b11#2

/-- The decoder, total on command words: "every word is exactly one of the four" (30_encoding R91), in the order of
43_commands R162. -/
def decode (c : CmdWord) : Instr :=
  if opField c = opRsvd3 then .rsvd3 (argField c)
  else if opField c = opInit then .init (argField c).toInt
  else if opField c = opRecord then .record (argField c)
  else .estimate (argField c)

/-- Why a number is no command. -/
inductive DecodeError where
  /-- The number has a bit above bit 65: "every command is 66 bits" (30_encoding R84, R93). -/
  | notACommandWord
deriving DecidableEq, Repr

/-- The decoder on any number: a number of 66 bits or fewer is a command word, any other is rejected by name (log
entry 12). -/
def decodeNat (w : Nat) : Except DecodeError Instr :=
  if w < 2 ^ 66 then .ok (decode (BitVec.ofNat 66 w)) else .error .notACommandWord

/-- What the decoder reads from an instruction whose bits are `w`. A command is ONE word (30_encoding R84), so its bits
are numbered as the table numbers them and any bit above `nbits` is already 0 in `w`. -/
def decodeTableWord (_nbits w : Nat) : Option Instr :=
  match decodeNat w with
  | .ok i => some i
  | .error _ => none

/-- The operation code of an instruction (30_encoding R85). -/
def Instr.op (i : Instr) : BitVec 2 :=
  match i with
  | .init _ => opInit
  | .record _ => opRecord
  | .estimate _ => opEstimate
  | .rsvd3 _ => opRsvd3

/-- The operand field of an instruction; a capacity in two's complement (30_encoding R86, R87). -/
def Instr.arg (i : Instr) : Word :=
  match i with
  | .init cap => BitVec.ofInt 64 cap
  | .record h => h
  | .estimate h => h
  | .rsvd3 arg => arg

/-- The encoder: `{op, arg}` as one 66-bit value (30_encoding R84, R95). -/
def encode (i : Instr) : CmdWord := (i.op ++ i.arg : BitVec (2 + 64))

/-- The opcode map's mask, the same for its four rows (30_encoding R91). -/
def opMask : CmdWord := 0x30000000000000000#66

/-- The `match` column of the opcode map (30_encoding R91). -/
def Instr.matchWord (i : Instr) : CmdWord :=
  match i with
  | .init _ => 0x00000000000000000#66
  | .record _ => 0x10000000000000000#66
  | .estimate _ => 0x20000000000000000#66
  | .rsvd3 _ => 0x30000000000000000#66

/-- The spellings the assembler notation accepts for an operation (30_encoding R95; 00_scope R17). -/
def opOfName (name : String) : Option (BitVec 2) :=
  if name ∈ ["INIT", "initialize", "construct"] then some opInit
  else if name ∈ ["REC", "RECORD", "recordAccess", "increment"] then some opRecord
  else if name ∈ ["EST", "ESTIMATE", "estimateFrequency", "frequency"] then some opEstimate
  else if name = "RSVD3" then some opRsvd3
  else none

/-- `REC h x n`, which is `n` consecutive `REC h` (30_encoding R96). -/
def recTimes (h : Word) (n : Nat) : List Instr := List.replicate n (.record h)

/-- `REC k for k = a..b`, the loop variable being the hash itself; nothing when b is below a (30_encoding R96, 00_scope
R14). -/
def recRange (a b : Nat) : List Instr :=
  (List.range (b + 1 - a)).map fun j => .record (BitVec.ofNat 64 (a + j))

end Sys2Proof
end

