-- ==== Sys2Proof/Config.lean ====
section
/-! DEFINITION. What the spec leaves to an implementation, and the free values. The constants that the spec fixes
(00_scope R6) stand in Machine/Params.lean. -/

namespace Sys2Proof

/-- The OPEN parameter LOG2_NB_MAX, "integer in [0, 32]" (00_scope R6, 92 D7). -/
abbrev Config.Log2NbMax := Fin 33

/-- DESIGN CHOICE (log entry 1): LOG2_NB_MAX of the machine at State.reset, the value of every test vector of the spec. -/
def Config.resetLog2NbMax : Config.Log2NbMax := 15

/-- FREE VALUE (log entry 2): what byte `addr` of the table holds after the hardware reset number `draw`. The spec calls
every table word unspecified after hardware reset, "a draw per word" that "may differ from one reset to the next"
(10_state R35, 70_reset_and_hazards R247). It has no body, so nothing can be proved of its value. -/
opaque Config.tableDraw (draw addr : Nat) : Byte

end Sys2Proof
end

