-- ==== Sys2Proof/Machine/Params.lean ====
section
/-! DEFINITION. The parameters of 00_scope R6 and the quantities of R7 that INIT fixes. -/

namespace Sys2Proof.Machine

/-- Counters per table word (00_scope R6, CTRS_PER_WORD). -/
def ctrsPerWord : Nat := 16

/-- Words per block (00_scope R6, WORDS_PER_BLOCK). -/
def wordsPerBlock : Nat := 8

/-- Bytes per word (00_scope R6: 64 bits). -/
def bytesPerWord : Nat := 8

/-- The saturation value of a counter (00_scope R6, CTR_MAX). -/
def ctrMax : Nat := 15

/-- `SEG_MASK` (00_scope R6, 92 D11). -/
def segMask : Word := 31#64

/-- `SegBase(d) = 32 x d` (00_scope R6, 92 D11). -/
def segBase (d : Fin 4) : Nat := 32 * d.val

/-- `BLOCK_SHIFT` (00_scope R6, 92 D10). -/
def blockShift : Nat := 32

/-- `SAMPLE_MULT` (00_scope R6, 92 D4). -/
def sampleMult : Nat := 10

/-- `log2 TL_MIN`: the floor of the table length is 32 = 2^5 (00_scope R6, R7, 92 D3). -/
def log2TlMin : Nat := 5

/-- `NB_MAX = 2^LOG2_NB_MAX` (00_scope R6). -/
def nbMax (p : Config.Log2NbMax) : Nat := 2 ^ p.val

/-- `NW_MAX = 8 x NB_MAX` (00_scope R6). -/
def nwMax (p : Config.Log2NbMax) : Nat := wordsPerBlock * nbMax p

/-- `TL_MAX = 32 x NB_MAX` (00_scope R6). -/
def tlMax (p : Config.Log2NbMax) : Nat := 32 * nbMax p

/-- `CAP_MAX = TL_MAX` (00_scope R6). -/
def capMax (p : Config.Log2NbMax) : Nat := tlMax p

/-- `Clog2(c)`, "the least integer `k >= 0` with `2^k >= c`" (43_commands R166). -/
def clog2 (c : Nat) : Nat := if c ≤ 1 then 0 else Nat.log2 (c - 1) + 1

/-- `LOG2_TL = max(5, clog2(cap))` (00_scope R7). -/
def log2Tl (cap : Nat) : Nat := max log2TlMin (clog2 cap)

/-- The three size registers as functions of LOG2_TL (00_scope R7): TL, NB = TL / 32 and SAMPLE_SIZE = 10 x TL. -/
def tableLenOf (k : Nat) : Nat := 2 ^ k
def blockCountOf (k : Nat) : Nat := 2 ^ (k - log2TlMin)
def sampleSizeOf (k : Nat) : Nat := sampleMult * 2 ^ k

end Sys2Proof.Machine
end

