-- ==== Sys2Proof/Machine/Counters.lean ====
section
/-! DEFINITION. The Counter Table's pure functions on one 64-bit word (42_counter_table). -/

namespace Sys2Proof.Machine

/-- `NibGet(v, n) = v[4n+3 : 4n]` (42_counter_table R141). -/
def nibGet (v : Word) (n : Fin 16) : Nibble := v.extractLsb' (4 * n.val) 4

/-- `NibInc(v, n)`: the new word and whether the counter changed; a counter at 15 is left alone (42_counter_table R142). -/
def nibInc (v : Word) (n : Fin 16) : Word × Bool :=
  if (nibGet v n).toNat < ctrMax then (v + (1#64 <<< (4 * n.val)), true) else (v, false)

/-- `HALVE_MASK` (42_counter_table R144, 90 C3). -/
def halveMask : Word := 0x7777777777777777#64

/-- `HalveWord(v) = (v >> 1) & HALVE_MASK` (42_counter_table R144). -/
def halveWord (v : Word) : Word := (v >>> 1) &&& halveMask

/-- `LOW_MASK` (42_counter_table R145). -/
def lowMask : Word := 0x1111111111111111#64

/-- The number of 1 bits (00_scope R10). -/
def popcount (v : Word) : Nat := (List.range 64).countP fun i => v.getLsbD i

/-- `OddCount(v) = popcount(v & LOW_MASK)` (42_counter_table R145). -/
def oddCount (v : Word) : Nat := popcount (v &&& lowMask)

end Sys2Proof.Machine
end

