-- ==== Sys2Proof/Machine/State.lean ====
section
/-! DEFINITION. The state of the block as plain data (10_state), the reasons a step can stop, and the state right after
hardware reset. INVENTORY.md lists every field with its rule and reset value. -/

namespace Sys2Proof.Machine

/-- `MODE`: UNCONFIGURED = 0, READY = 1 (10_state R24). -/
inductive Mode where
  | unconfigured
  | ready
deriving DecidableEq, Repr

/-- The engine's three conditions at the command and response ports (10_state R33, 30_encoding R82). -/
inductive Engine where
  | idle
  | busy
  | resp
deriving DecidableEq, Repr

/-- The outcome a response reports (30_encoding R89, 60_exceptions R217). -/
inductive Status where
  | ok
  | errCapacity
  | errState
  | errIllegal
deriving DecidableEq, Repr

/-- What the host drives on the block's input ports at one step (30_encoding R75). -/
structure Drive where
  /-- `rst`, hardware reset, active high. -/
  rst : Bool
  /-- `cmd_valid`: the host presents a command word. -/
  cmdValid : Bool
  /-- `cmd_data`: the command word. -/
  cmdData : CmdWord
  /-- `rsp_ready`: the host can accept a response word. -/
  rspReady : Bool
deriving DecidableEq, Repr

/-- The counter table `T` (10_state R29): byte `j` of word `w` (20_memory R51) is at address `8 w + j`. An address that is
not listed has not been written since the last hardware reset; it reads as `Config.tableDraw draw address`. -/
structure Memory where
  /-- Which draw of the unspecified contents is in force: the model's own counter, advanced by every hardware reset
  (70_reset_and_hazards R247; log entry 2). -/
  draw : Nat
  /-- What has been written since then, addresses strictly rising. -/
  cells : List Host.Cell
deriving DecidableEq, Repr

/-- The whole state (10_state R20, R33; 30_encoding R75 to R82). -/
@[ext]
structure State where
  /-- `MODE` (R24). -/
  mode : Mode
  /-- `TABLE_LEN` (R25). -/
  tableLen : Word
  /-- `BLOCK_COUNT` (R26). -/
  blockCount : Word
  /-- `SAMPLE_SIZE` (R27). -/
  sampleSize : Word
  /-- `ADD_COUNT` (R28). -/
  addCount : Word
  /-- `T` (R29). -/
  table : Memory
  /-- The engine's condition (R33). -/
  engine : Engine
  /-- The latched command word (R32), meaningful while BUSY. -/
  cmdReg : CmdWord
  /-- The response register (R33), visible while RESP. -/
  rspReg : RspWord
  /-- How many commands were accepted since the last hardware reset (30_encoding R78). -/
  accepted : Nat
  /-- The responses transferred since the last hardware reset, oldest first (30_encoding R81, 60_exceptions R232). -/
  responses : List RspWord
  /-- What the host will drive, one entry a step (70_reset_and_hazards R262; log entry 5). -/
  inputs : List Drive
  /-- The command the host presents and the block has not accepted yet (30_encoding R79). -/
  presented : Option CmdWord
  /-- The parameter LOG2_NB_MAX (00_scope R6, 92 D7); no step changes it (log entry 1). -/
  log2NbMax : Config.Log2NbMax
deriving DecidableEq, Repr

/-- Why the machine stops although the instruction has a meaning. -/
inductive Fault where
  /-- Raised by RECORD, ESTIMATE and the aging pass when a word index is NW_MAX or above, a word that does not exist
  (20_memory R45). SAFE: no state that a run reaches forms one (41_index_mapper R130, 10_state R34; log entry 10). -/
  | noSuchTableWord
deriving DecidableEq, Repr

/-- Why the model gives a step no meaning. -/
inductive Refusal where
  /-- An instruction without a meaning, by its mnemonic. No arm of exec raises it. SAFE: the machine stops. -/
  | notModelled (mnemonic : String)
  /-- Raised by step when the host withdraws or changes a command it has presented and that is not yet accepted: "a
  model has no move for such a host" (30_encoding R79, 70_reset_and_hazards R258; log entry 7). SAFE: the machine stops. -/
  | handshakeBroken
deriving DecidableEq, Repr

/-- The table right after a hardware reset: nothing has been written (70_reset_and_hazards R247). -/
def Memory.unspecified (draw : Nat) : Memory := { draw := draw, cells := [] }

/-- The machine right after reset (10_state R35, 70_reset_and_hazards R246). -/
def State.reset : State where
  mode := .unconfigured
  tableLen := 0#64
  blockCount := 0#64
  sampleSize := 0#64
  addCount := 0#64
  table := Memory.unspecified 0
  engine := .idle
  cmdReg := 0#66
  rspReg := 0#6
  accepted := 0
  responses := []
  inputs := []
  presented := none
  log2NbMax := Config.resetLog2NbMax

end Sys2Proof.Machine
end

