-- ==== Sys2Proof/Machine/Flags.lean ====
section
/-! DEFINITION. The block keeps no flags (10_state R23). What it reports and the one-bit conditions of a command stand
here: the response word RSP6 (30_encoding R88 to R90) and the aging trigger (44_aging R196). -/

namespace Sys2Proof.Machine

/-- The status codes (30_encoding R89). -/
def Status.code (st : Status) : BitVec 2 :=
  match st with
  | .ok => 0b00#2
  | .errCapacity => 0b01#2
  | .errState => 0b10#2
  | .errIllegal => 0b11#2

/-- A response word: status in 5:4, data in 3:0 (30_encoding R88). -/
def rspWord (st : Status) (data : Nibble) : RspWord := (st.code ++ data : BitVec (2 + 4))

/-- The `status` field of a response word (30_encoding R88). -/
def rspStatus (r : RspWord) : BitVec 2 := r.extractLsb' 4 2

/-- The `data` field of a response word (30_encoding R88). -/
def rspData (r : RspWord) : Nibble := r.extractLsb' 0 4

/-- The aging trigger, `fire = (ADD_COUNT >= SAMPLE_SIZE)`, unsigned (44_aging R196). -/
def fires (addCount sampleSize : Word) : Bool := decide (sampleSize.toNat ≤ addCount.toNat)

end Sys2Proof.Machine
end

