-- ==== Sys2Proof/Machine/Ops.lean ====
section
/-! DEFINITION. The named operations: over the counter table (20_memory, 42_counter_table R146, R147), the response and the error
(00_scope R13, 60_exceptions R216), hardware reset (70_reset_and_hazards R246) and the ports (30_encoding R75 to R82). -/

namespace Sys2Proof.Machine

/-! ## The counter table -/

/-- The byte listed at an address, if any. -/
def lookup : List Host.Cell → Nat → Option Byte
  | [], _ => none
  | (k, v) :: rest, a => if a = k then some v else lookup rest a

/-- List a byte at an address, keeping the addresses rising. -/
def put : List Host.Cell → Nat → Byte → List Host.Cell
  | [], a, b => [(a, b)]
  | (k, v) :: rest, a, b =>
    if a < k then (a, b) :: (k, v) :: rest
    else if a = k then (a, b) :: rest
    else (k, v) :: put rest a b

/-- The canonical form: addresses strictly rising. An address that nothing has written reads as a free value, which no
entry can be known to equal, so every entry stands for a write since the last hardware reset (log entry 2). -/
abbrev Memory.wf (m : Memory) : Prop := m.cells.Pairwise fun p q => p.1 < q.1

/-- The addresses written since the last hardware reset. -/
def Memory.addresses (m : Memory) : List Nat := m.cells.map Prod.fst

/-- What the byte at an address reads as: what was last written there, else the unspecified content of the current draw
(70_reset_and_hazards R247). -/
def Memory.readByte (m : Memory) (a : Nat) : Byte := (lookup m.cells a).getD (Config.tableDraw m.draw a)

/-- Write one byte. -/
def Memory.writeByte (m : Memory) (a : Nat) (b : Byte) : Memory := { m with cells := put m.cells a b }

/-- Byte `j` of a word is `v[8j+7 : 8j]`: the byte view is little-endian (20_memory R51). -/
def byteOf (v : Word) (j : Nat) : Byte := v.extractLsb' (8 * j) 8

/-- The word with the given eight bytes (20_memory R51). -/
def wordOf (b : Nat → Byte) : Word :=
  (b 7 ++ b 6 ++ b 5 ++ b 4 ++ b 3 ++ b 2 ++ b 1 ++ b 0 : BitVec (8 + 8 + 8 + 8 + 8 + 8 + 8 + 8))

/-- The address of byte `j` of word `w`. -/
def byteAddr (w j : Nat) : Nat := bytesPerWord * w + j

/-- `MemRead(w, 8)` (00_scope R12, 20_memory R52). -/
def Memory.readWord (m : Memory) (w : Nat) : Word := wordOf fun j => m.readByte (byteAddr w j)

/-- `MemWrite(w, 8, v)` (00_scope R12, 20_memory R52). -/
def Memory.writeWord (m : Memory) (w : Nat) (v : Word) : Memory :=
  (List.range bytesPerWord).foldl (fun t j => t.writeByte (byteAddr w j) (byteOf v j)) m

/-- The counter at in-block offset `o` of block `b`: nibble `o & 15` of word `o >> 4` of the block (20_memory R48). -/
def Memory.counter (m : Memory) (b o : Nat) : Nibble :=
  nibGet (m.readWord (wordsPerBlock * b + o / ctrsPerWord)) (Fin.ofNat 16 o)

/-- Column `c` of row `d` of the conceptual depth × width matrix: offset `32 d + (c & 31)` of block `c >> 5` (20_memory
R48). -/
def Memory.matrix (m : Memory) (d : Fin 4) (c : Nat) : Nibble := m.counter (c / 32) (32 * d.val + c % 32)

/-- `Line(b)`, the 512-bit view of a block (20_memory R49). -/
def Memory.line (m : Memory) (b : Nat) : BitVec 512 :=
  (m.readWord (8 * b + 7) ++ m.readWord (8 * b + 6) ++ m.readWord (8 * b + 5) ++ m.readWord (8 * b + 4)
    ++ m.readWord (8 * b + 3) ++ m.readWord (8 * b + 2) ++ m.readWord (8 * b + 1) ++ m.readWord (8 * b)
    : BitVec (64 + 64 + 64 + 64 + 64 + 64 + 64 + 64))

/-- `ClearAll()` over the first `nw` words (42_counter_table R147). -/
def clearAll (m : Memory) (nw : Nat) : Memory := (List.range nw).foldl (fun t w => t.writeWord w 0#64) m

/-- One word of the scan of `ResetAll`: halve it and add its odd counters to the count (42_counter_table R146). -/
def resetWord (acc : Memory × Nat) (w : Nat) : Memory × Nat :=
  (acc.1.writeWord w (halveWord (acc.1.readWord w)), acc.2 + oddCount (acc.1.readWord w))

/-- `ResetAll()` over the first `nw` words, in ascending order: the halved table and the odd count of the whole table
before the halving (42_counter_table R146). -/
def resetAll (m : Memory) (nw : Nat) : Memory × Nat := (List.range nw).foldl resetWord (m, 0)

/-- `NW = 8 x BLOCK_COUNT`, the words in use (10_state R26). -/
def State.nwInUse (s : State) : Nat := wordsPerBlock * s.blockCount.toNat

/-- The table and `ADD_COUNT` written, all that RECORD and its aging pass write (10_state R36). -/
def State.withCounts (s : State) (m : Memory) (n : Word) : State := { s with table := m, addCount := n }

/-! ## The response and the error -/

/-- `respond(status, data)`: the response word is held in the response register and the engine is in RESP (00_scope R13,
30_encoding R82). The latched command word, dead from here on (10_state R32), keeps its value (log entry 19). -/
def State.respond (s : State) (st : Status) (data : Nibble) : State :=
  { s with engine := .resp, rspReg := rspWord st data }

/-- `raise <Error>(none)`, the block's whole error entry: nothing is written and the response carries the status code
with data 0 (60_exceptions R216, R225). There is no return from an error: the engine goes on as after any command
(R226). -/
def State.raiseError (s : State) (st : Status) : State := s.respond st 0#4

/-! ## Hardware reset -/

/-- `Reset(S)` (70_reset_and_hazards R246): the registers at their reset values, the table at a new draw of its
unspecified contents (R247), the command in progress and its response gone, the numbering at 0 (R248). The host's drives
and the build parameter are not the block's state and stay. -/
def State.hardwareReset (s : State) : State :=
  { State.reset with
    table := Memory.unspecified (s.table.draw + 1)
    inputs := s.inputs
    presented := s.presented
    log2NbMax := s.log2NbMax }

/-! ## The ports -/

/-- A host that drives nothing: what the block sees when no drive is listed (log entry 5). -/
def Drive.quiet : Drive := { rst := false, cmdValid := false, cmdData := 0#66, rspReady := false }

/-- What the host drives at this step. -/
def State.driven (s : State) : Drive := s.inputs.headD Drive.quiet

/-- The `cmd_ready` output: 1 in IDLE, 0 while `rst` = 1 (30_encoding R77, R82). -/
def State.cmdReady (s : State) : Bool := !s.driven.rst && decide (s.engine = .idle)

/-- The `rsp_valid` output: 1 in RESP, 0 while `rst` = 1 (30_encoding R77, R82). -/
def State.rspValid (s : State) : Bool := !s.driven.rst && decide (s.engine = .resp)

/-- The `rsp_data` output, which means something only while `rsp_valid` = 1 (10_state R35, 30_encoding R80). -/
def State.rspPort (s : State) : Option RspWord := if s.rspValid then some s.rspReg else none

/-- A command is accepted: `rst` = 0, `cmd_valid` = 1 and `cmd_ready` = 1 (30_encoding R78). -/
def State.accepts (s : State) : Bool := !s.driven.rst && s.driven.cmdValid && s.cmdReady

/-- A response is transferred: `rst` = 0, `rsp_valid` = 1 and `rsp_ready` = 1 (30_encoding R80). -/
def State.transfers (s : State) : Bool := !s.driven.rst && s.rspValid && s.driven.rspReady

/-- The host withdraws or changes a command it has presented and that is not yet accepted (30_encoding R79). -/
def State.handshakeBroken (s : State) : Bool :=
  match s.presented with
  | none => false
  | some c => !(s.driven.cmdValid && decide (s.driven.cmdData = c))

/-- The step has sampled the host's drive: it is used up, and a command it presents stands until it is accepted. -/
def State.sampled (s : State) : State :=
  { s with
    inputs := s.inputs.tail
    presented := if s.driven.cmdValid then some s.driven.cmdData else none }

/-- IDLE to BUSY: the command word is latched and numbered (30_encoding R78, R82). -/
def State.accept (s : State) (c : CmdWord) : State :=
  { s with engine := .busy, cmdReg := c, accepted := s.accepted + 1, presented := none }

/-- RESP to IDLE: the host has taken the response (30_encoding R80, R82). DESIGN CHOICE (log entry 19): the response register and
the latched command word keep their old values, which 10_state R35 (`{OK, 0}` until taken) and R32 leave open from here on
and nothing shows. -/
def State.transfer (s : State) : State :=
  { s with engine := .idle, responses := s.responses ++ [s.rspReg] }

/-- A step with `rst` = 1: hardware reset, whatever the engine is doing (30_encoding R77, 60_exceptions R224). -/
def State.resetEdge (s : State) : State := s.sampled.hardwareReset

/-- A step with `rst` = 0 at which no command executes: acceptance, transfer, or waiting for the host (30_encoding R78,
R80, R83). -/
def State.portEdge (s : State) : State :=
  if s.accepts then s.sampled.accept s.driven.cmdData
  else if s.transfers then s.sampled.transfer
  else s.sampled

/-- The command in BUSY. -/
def State.fetched (s : State) : Instr := decode s.cmdReg

/-- The command word `c` accepted on the command port by a host that drives nothing else at the next step (log entry
6). -/
def State.placeCommand (s : State) (c : CmdWord) : State :=
  { s with inputs := Drive.quiet :: s.inputs }.accept c

end Sys2Proof.Machine
end

