-- ==== Sys2Proof/Machine/Operands.lean ====
section
/-! DEFINITION. The one addressing mode of the block, the hashed mode of RECORD and ESTIMATE (43_commands R184): the Hash
Mixer (40_hash_mixer) and the Index Generator (41_index_mapper). -/

namespace Sys2Proof.Machine

/-- The four rows, in the order of the pseudocode (43_commands R170). -/
def rows : List (Fin 4) := [0, 1, 2, 3]

/-! ## Hash Mixer -/

/-- `FMIX_C1` and `FMIX_C2` (40_hash_mixer R112). -/
def fmixC1 : Word := 0xFF51AFD7ED558CCD#64
def fmixC2 : Word := 0xC4CEB9FE1A85EC53#64

/-- `x ^ (x >> n)`, the xor-shift of the mixer (40_hash_mixer R112, R113). -/
def xorShift (x : Word) (n : Nat) : Word := x ^^^ (x >>> n)

/-- `Fmix64(x)` (40_hash_mixer R112). The constants stand on the left of their products, which are the same either way
round: Lean's kernel unfolds a product along its right factor, and a 64-bit constant there would be unfolded to the end. -/
def fmix64 (x : Word) : Word := xorShift (fmixC2 * xorShift (fmixC1 * xorShift x 33) 33) 33

/-- The row constants `K[d]` (40_hash_mixer R114). -/
def rowConst (d : Fin 4) : Word :=
  match d with
  | 0 => 0xC3A5C85C97CB3127#64
  | 1 => 0xB492B66FBE98F273#64
  | 2 => 0x9AE16A3B2F90404F#64
  | 3 => 0xCBF29CE484222325#64

/-- `Row(b, d)` (40_hash_mixer R113). -/
def rowHash (b : Word) (d : Fin 4) : Word := xorShift (rowConst d * b) 32

/-- `Mix(h)`, the mixed hash of each row (40_hash_mixer R115). -/
def mix (h : Word) (d : Fin 4) : Word := rowHash (fmix64 h) d

/-! ## Index Generator -/

/-- Where a counter stands: its word index in `T` and its nibble in that word (41_index_mapper R128). -/
structure Position where
  word : Nat
  nibble : Fin 16
deriving DecidableEq, Repr

/-- `BlockIndex(m0) = (m0 >> 32) & (BLOCK_COUNT - 1)` (41_index_mapper R126). -/
def blockIndex (m0 blockCount : Word) : Nat := ((m0 >>> blockShift) &&& (blockCount - 1#64)).toNat

/-- `CounterOffset(m_d, d) = 32 x d + (m_d & 31)` (41_index_mapper R127). -/
def counterOffset (m : Word) (d : Fin 4) : Nat := segBase d + (m &&& segMask).toNat

/-- Word and nibble of an in-block offset: `w = 8 x b + (o >> 4)`, `n = o & 15` (41_index_mapper R128). -/
def positionOf (b o : Nat) : Position :=
  { word := wordsPerBlock * b + o / ctrsPerWord, nibble := Fin.ofNat 16 o }

/-- `Locate`, the position of each row (41_index_mapper R129). -/
def locate (m : Fin 4 → Word) (blockCount : Word) (d : Fin 4) : Position :=
  positionOf (blockIndex (m 0) blockCount) (counterOffset (m d) d)

/-- `Pos(h) = Locate(Mix(h))` (41_index_mapper R129). -/
def pos (h blockCount : Word) : Fin 4 → Position := locate (mix h) blockCount

/-- The four positions of the item `h` under the configured block count (41_index_mapper R125, R132). -/
def State.positions (s : State) (h : Word) : Fin 4 → Position := pos h s.blockCount

/-- Every one of the four words exists: its index is below NW_MAX (20_memory R45). True in every state that a run reaches
(41_index_mapper R130). -/
def State.positionsExist (s : State) (h : Word) : Bool :=
  rows.all fun d => decide ((s.positions h d).word < nwMax s.log2NbMax)

/-- The counter at a position (42_counter_table R141 on the word read). -/
def Memory.at (m : Memory) (p : Position) : Nibble := nibGet (m.readWord p.word) p.nibble

end Sys2Proof.Machine
end

