-- ==== Sys2Proof/Machine/Aging.lean ====
section
/-! DEFINITION. The aging pass that runs inside RECORD (44_aging). -/

namespace Sys2Proof.Machine

/-- `AgeCount(n, odd)`: the count less half the odd count, never below 0, then halved (44_aging R198). -/
def ageCount (n odd : Nat) : Nat := (n - min (odd / 2) n) / 2

/-- `AgingPass()` (44_aging R197). -/
def State.agingPass (s : State) : State :=
  s.withCounts (resetAll s.table s.nwInUse).1
    (BitVec.ofNat 64 (ageCount s.addCount.toNat (resetAll s.table s.nwInUse).2))

/-- Every word of the scan exists. True in every state that a run reaches (10_state R34 I2). -/
def State.scanExists (s : State) : Bool := decide (s.nwInUse ≤ nwMax s.log2NbMax)

end Sys2Proof.Machine
end

