-- ==== Sys2Proof/Machine/Commands.lean ====
section
/-! DEFINITION. The meanings of INIT, RECORD, ESTIMATE and RSVD3 (43_commands). -/

namespace Sys2Proof.Machine

/-! ## INIT -/

/-- The state a successful INIT configures, before its response (43_commands R165). -/
def State.configured (s : State) (k : Nat) : State :=
  { s with
    mode := .ready
    tableLen := BitVec.ofNat 64 (tableLenOf k)
    blockCount := BitVec.ofNat 64 (blockCountOf k)
    sampleSize := BitVec.ofNat 64 (sampleSizeOf k)
    addCount := 0#64
    table := clearAll s.table (wordsPerBlock * blockCountOf k) }

/-- The capacity is legal, a signed comparison (43_commands R165, R166; 30_encoding R87). -/
def State.capLegal (s : State) (cap : Int) : Bool := decide (1 ≤ cap) && decide (cap ≤ (capMax s.log2NbMax : Int))

/-- INIT (43_commands R165): the mode check first, then the capacity check (60_exceptions R224). -/
def execInit (cap : Int) (s : State) : Host.Outcome State Fault Refusal :=
  match s.mode with
  | .ready => .next (s.raiseError .errState)
  | .unconfigured =>
    if s.capLegal cap then .next ((s.configured (log2Tl cap.toNat)).respond .ok 0#4)
    else .next (s.raiseError .errCapacity)

/-! ## RECORD -/

/-- One row of RECORD's loop: increment the counter and write its word back if it changed; the flag collects `changed`
(43_commands R170). -/
def bump (acc : Memory × Bool) (p : Position) : Memory × Bool :=
  if (nibInc (acc.1.readWord p.word) p.nibble).2 then
    (acc.1.writeWord p.word (nibInc (acc.1.readWord p.word) p.nibble).1, true)
  else acc

/-- RECORD's four updates in row order, and whether a counter changed (43_commands R170, R171). -/
def bumpAll (m : Memory) (p : Fin 4 → Position) : Memory × Bool :=
  rows.foldl (fun acc d => bump acc (p d)) (m, false)

/-- The state after RECORD's counter updates and, if a counter changed, the increment of ADD_COUNT (43_commands R170). -/
def State.counted (s : State) (h : Word) : State :=
  let r := bumpAll s.table (s.positions h)
  s.withCounts r.1 (if r.2 then s.addCount + 1#64 else s.addCount)

/-- RECORD runs the aging pass: a counter changed and the increased count has reached the threshold (44_aging R196). -/
def State.ages (s : State) (h : Word) : Bool :=
  (bumpAll s.table (s.positions h)).2 && fires (s.addCount + 1#64) s.sampleSize

/-- RECORD (43_commands R170). -/
def execRecord (h : Word) (s : State) : Host.Outcome State Fault Refusal :=
  match s.mode with
  | .unconfigured => .next (s.raiseError .errState)
  | .ready =>
    if s.positionsExist h then
      if s.ages h then
        if s.scanExists then .next ((s.counted h).agingPass.respond .ok 0#4)
        else .fault .noSuchTableWord
      else .next ((s.counted h).respond .ok 0#4)
    else .fault .noSuchTableWord

/-! ## ESTIMATE -/

/-- The lesser of two counters, an unsigned comparison (43_commands R186). -/
def nibMin (a b : Nibble) : Nibble := if a.toNat ≤ b.toNat then a else b

/-- The minimum of the item's four counters (43_commands R175). -/
def State.estimateOf (s : State) (h : Word) : Nibble :=
  let c := fun d => s.table.at (s.positions h d)
  nibMin (nibMin (c 0) (c 1)) (nibMin (c 2) (c 3))

/-- ESTIMATE (43_commands R175). -/
def execEstimate (h : Word) (s : State) : Host.Outcome State Fault Refusal :=
  match s.mode with
  | .unconfigured => .next (s.raiseError .errState)
  | .ready =>
    if s.positionsExist h then .next (s.respond .ok (s.estimateOf h))
    else .fault .noSuchTableWord

/-! ## RSVD3 -/

/-- RSVD3: ERR_ILLEGAL in either mode, the operand ignored (43_commands R180). -/
def execRsvd3 (_arg : Word) (s : State) : Host.Outcome State Fault Refusal := .next (s.raiseError .errIllegal)

end Sys2Proof.Machine
end

