-- ==== Sys2Proof/Machine/Dispatch.lean ====
section
/-! DEFINITION. One arm per command (43_commands R162). -/

namespace Sys2Proof.Machine

def exec (i : Instr) (s : State) : Host.Outcome State Fault Refusal :=
  match i with
  | .init cap => Sys2Proof.Machine.execInit cap s
  | .record h => Sys2Proof.Machine.execRecord h s
  | .estimate h => Sys2Proof.Machine.execEstimate h s
  | .rsvd3 arg => Sys2Proof.Machine.execRsvd3 arg s

end Sys2Proof.Machine
end

