-- ==== Sys2Proof/Machine/Step.lean ====
section
/-! DEFINITION. One step of the machine: one event at the ports or the execution of the command in BUSY (30_encoding R77
to R82; log entry 4). -/

namespace Sys2Proof.Machine

/-- Hardware reset has priority over everything (60_exceptions R224); a host that breaks the handshake has no move
(30_encoding R79); in BUSY the command executes to completion (43_commands R161); else the ports are served. -/
def step (s : State) : Host.Outcome State Fault Refusal :=
  if s.driven.rst then .next s.resetEdge
  else if s.handshakeBroken then .refused .handshakeBroken
  else match s.engine with
    | .busy => exec s.fetched s.sampled
    | .idle => .next s.portEdge
    | .resp => .next s.portEdge

/-- The state with the command word whose bits are `w` accepted, so that the next step executes it. A command word has 66
bits (30_encoding R84), so `nbits` says nothing more. -/
def State.withFetchWord (s : State) (_nbits w : Nat) : State := s.placeCommand (BitVec.ofNat 66 w)

end Sys2Proof.Machine
end

