-- ==== Sys2Proof/Safety.lean ====
section
/-! DEFINITION. What claims speak of: the invariant of the block (10_state R34, 30_encoding R81), the counters as numbers
(42_counter_table R143), and the table words an item touches (41_index_mapper R129). -/

namespace Sys2Proof.Machine

/-- How many commands are accepted and not yet answered: one in BUSY and in RESP (30_encoding R82). -/
def Engine.outstanding (e : Engine) : Nat :=
  match e with
  | .idle => 0
  | .busy => 1
  | .resp => 1

/-- The size registers of a configured block, with LOG2_TL = `k` (10_state R34 I2, R25 to R27). -/
structure State.SizedBy (s : State) (k : Nat) : Prop where
  floor : 5 ≤ k
  ceiling : k ≤ s.log2NbMax.val + 5
  tableLen : s.tableLen.toNat = 2 ^ k
  blockCount : s.blockCount.toNat = 2 ^ (k - 5)
  sampleSize : s.sampleSize.toNat = 10 * 2 ^ k

/-- The invariant between commands (10_state R34), with the words written since hardware reset being exactly the words in
use (I4 and 42_counter_table R147) and every accepted command answered exactly once (30_encoding R81). -/
structure State.Inv (s : State) : Prop where
  unconfigured : s.mode = .unconfigured →
    s.tableLen = 0#64 ∧ s.blockCount = 0#64 ∧ s.sampleSize = 0#64 ∧ s.addCount = 0#64
  sized : s.mode = .ready → ∃ k, s.SizedBy k
  counted : s.mode = .ready → s.addCount.toNat < s.sampleSize.toNat
  inUse : s.table.addresses = List.range (bytesPerWord * s.nwInUse)
  answered : s.accepted = s.responses.length + s.engine.outstanding

/-- The six items of the architectural state are the same (10_state R20). -/
structure State.SameSketch (s t : State) : Prop where
  mode : t.mode = s.mode
  tableLen : t.tableLen = s.tableLen
  blockCount : t.blockCount = s.blockCount
  sampleSize : t.sampleSize = s.sampleSize
  addCount : t.addCount = s.addCount
  table : t.table = s.table

/-- Everything a command leaves alone beside the six items: the latched command, the numbering, the responses already
transferred, the host's drives and the build parameter (10_state R32, R33, R36). The engine's condition and the response
register, which every command writes, are not among them. That the latched command keeps its value is the model's choice (log
entry 19). -/
structure State.SameSurroundings (s t : State) : Prop where
  cmdReg : t.cmdReg = s.cmdReg
  accepted : t.accepted = s.accepted
  responses : t.responses = s.responses
  inputs : t.inputs = s.inputs
  presented : t.presented = s.presented
  log2NbMax : t.log2NbMax = s.log2NbMax

/-- The counter at in-block offset `o` of block `b`, as a number. -/
def State.counterAt (s : State) (b o : Nat) : Nat := (s.table.counter b o).toNat

/-- One of the item's four positions is the counter at offset `o` of block `b` (41_index_mapper R128). -/
abbrev State.hits (s : State) (h : Word) (b o : Nat) : Prop := ∃ d : Fin 4, s.positions h d = positionOf b o

/-- What RECORD makes of the counter at offset `o` of block `b`, before any aging: `c <- min(c + 1, 15)` on the item's four
counters (42_counter_table R143, 43_commands R170). -/
def State.recorded (s : State) (h : Word) (b o : Nat) : Nat :=
  if s.hits h b o then min (s.counterAt b o + 1) 15 else s.counterAt b o

/-- The RECORD of the item is an effective increment: "at least one counter actually changed" (00_scope R16). -/
abbrev State.effective (s : State) (h : Word) : Prop := ∃ d : Fin 4, (s.table.at (s.positions h d)).toNat < 15

/-- How many counters of the table are odd once RECORD has made its increments: the odd count of the pass that such a RECORD
runs (42_counter_table R146, 44_aging R200). -/
def State.oddRecorded (s : State) (h : Word) : Nat :=
  (List.range (128 * s.blockCount.toNat)).countP fun j => decide (s.recorded h (j / 128) (j % 128) % 2 = 1)

end Sys2Proof.Machine
end

