-- ==== Sys2Proof/Certificates/Slice0/Obligations.lean ====
section
/-! DEFINITION. The statements for the provers. Each docstring names the rules it formalises. No statement rests on the value
of a free byte (`Config.tableDraw`, log entry 2) or on the value of the parameter LOG2_NB_MAX (log entry 1): both are
universally quantified, the first as an uninterpreted constant. -/

open Sys2Proof Sys2Proof.Machine

/-! ## Encoding -/

/-- 30_encoding R97, word for word: the example commands in both directions and the example responses. -/
def Obligations.SpecExampleWordsReadAndWrite : Prop :=
  (encode (.init 512) = 0x00000000000000200#66 ∧ decode 0x00000000000000200#66 = .init 512) ∧
  (encode (.init (-1)) = 0x0FFFFFFFFFFFFFFFF#66 ∧ decode 0x0FFFFFFFFFFFFFFFF#66 = .init (-1)) ∧
  (encode (.record 0x616c706861#64) = 0x1000000616C706861#66 ∧
    decode 0x1000000616C706861#66 = .record 0x616c706861#64) ∧
  (encode (.estimate 0x616c706861#64) = 0x2000000616C706861#66 ∧
    decode 0x2000000616C706861#66 = .estimate 0x616c706861#64) ∧
  (encode (.rsvd3 0#64) = 0x30000000000000000#66 ∧ decode 0x30000000000000000#66 = .rsvd3 0#64) ∧
  rspWord .ok 5#4 = 0x05#6 ∧ rspWord .ok 0#4 = 0x00#6 ∧ rspWord .errCapacity 0#4 = 0x10#6 ∧
  rspWord .errState 0#4 = 0x20#6 ∧ rspWord .errIllegal 0#4 = 0x30#6 ∧ rspWord .ok 15#4 = 0x0F#6

/-- Decoding an encoded well-formed instruction gives it back, for every instruction and every operand (30_encoding R84
to R87, R93: no bit of a defined command is ignored). -/
def Obligations.DecodeOfEncodeIsTheInstruction : Prop :=
  ∀ i : Instr, i.wellFormed = true → decode (encode i) = i

/-- Every command word decodes to a well-formed instruction whose encoding is that word: each word has one meaning
(30_encoding R91, R93). -/
def Obligations.EncodeOfDecodeIsTheWord : Prop :=
  ∀ c : CmdWord, (decode c).wellFormed = true ∧ encode (decode c) = c

/-- 30_encoding R91: a word is the instruction of a row exactly when `(c & mask) == match`, its operand is the row's arg,
and every word is exactly one of the four. -/
def Obligations.OpcodeMapDecidesTheInstruction : Prop :=
  ∀ c : CmdWord,
    (c &&& 0x30000000000000000#66 = 0x00000000000000000#66 ↔ decode c = .init (c.extractLsb' 0 64).toInt) ∧
    (c &&& 0x30000000000000000#66 = 0x10000000000000000#66 ↔ decode c = .record (c.extractLsb' 0 64)) ∧
    (c &&& 0x30000000000000000#66 = 0x20000000000000000#66 ↔ decode c = .estimate (c.extractLsb' 0 64)) ∧
    (c &&& 0x30000000000000000#66 = 0x30000000000000000#66 ↔ decode c = .rsvd3 (c.extractLsb' 0 64)) ∧
    (c &&& 0x30000000000000000#66 = 0x00000000000000000#66 ∨ c &&& 0x30000000000000000#66 = 0x10000000000000000#66 ∨
      c &&& 0x30000000000000000#66 = 0x20000000000000000#66 ∨ c &&& 0x30000000000000000#66 = 0x30000000000000000#66)

/-! ## Ports and reset -/

/-- A step in BUSY runs the decoded command: exec of it at the state in which the host's drive has been sampled (43_commands
R161, R162; one step for the whole of BUSY is the model's choice, log entry 4). -/
def Obligations.BusyStepRunsTheDecodedCommand : Prop :=
  ∀ (s : State) (i : Instr),
    s.driven.rst = false → s.handshakeBroken = false → s.engine = .busy → decode s.cmdReg = i →
    step s = exec i { s with
      inputs := s.inputs.tail
      presented := if s.driven.cmdValid then some s.driven.cmdData else none }

/-- 30_encoding R78, R82: a command presented in IDLE with `rst` = 0 is accepted, latched and numbered, and the engine is
BUSY. That the response register keeps its old word from IDLE to BUSY is the model's choice (log entry 19), no word of the
rules; the draw, the drives and the list of responses are the model's fields (log entries 2, 5 and 9). -/
def Obligations.IdleStepAcceptsThePresentedCommand : Prop :=
  ∀ s : State,
    s.driven.rst = false → s.handshakeBroken = false → s.engine = .idle → s.driven.cmdValid = true →
    s.cmdReady = true ∧
    step s = .next { s with
      engine := .busy
      cmdReg := s.driven.cmdData
      accepted := s.accepted + 1
      inputs := s.inputs.tail
      presented := none }

/-- 30_encoding R80: in RESP the response stays valid and unchanged until the step at which the host is ready; at that step
it is transferred, and then `rsp_valid` = 0. -/
def Obligations.ResponseHoldsUntilTransferred : Prop :=
  ∀ s : State,
    s.driven.rst = false → s.handshakeBroken = false → s.engine = .resp →
    s.rspPort = some s.rspReg ∧
    ∃ t, step s = .next t ∧ s.SameSketch t ∧ t.inputs = s.inputs.tail ∧ t.accepted = s.accepted ∧
      (s.driven.rspReady = false → t.engine = .resp ∧ t.rspReg = s.rspReg ∧ t.responses = s.responses) ∧
      (s.driven.rspReady = true →
        t.engine = .idle ∧ t.rspValid = false ∧ t.responses = s.responses ++ [s.rspReg])

/-- 30_encoding R77, R82: the handshake outputs in each of the engine's conditions, and both 0 while `rst` = 1. -/
def Obligations.HandshakeOutputsFollowTheEngine : Prop :=
  ∀ s : State,
    (s.driven.rst = true → s.cmdReady = false ∧ s.rspValid = false) ∧
    (s.driven.rst = false →
      (s.engine = .idle → s.cmdReady = true ∧ s.rspValid = false) ∧
      (s.engine = .busy → s.cmdReady = false ∧ s.rspValid = false) ∧
      (s.engine = .resp → s.cmdReady = false ∧ s.rspValid = true))

/-- 70_reset_and_hazards R261: nothing happens in the block while it is IDLE and no command is presented. That the response
register and the latched command word keep their old words in IDLE is the model's choice (log entry 19); the draw, the drives
and the list of responses are the model's fields (log entries 2, 5 and 9). -/
def Obligations.IdleWithoutCommandIsQuiescent : Prop :=
  ∀ s : State,
    s.driven.rst = false → s.presented = none → s.engine = .idle → s.driven.cmdValid = false →
    step s = .next { s with inputs := s.inputs.tail }

/-- A host that withdraws or changes a presented command gets no step (30_encoding R79: "a model has no move for such a
host"); that the model stops under a name of its own is its choice (log entry 7). -/
def Obligations.BrokenHandshakeIsRefused : Prop :=
  ∀ (s : State) (c : CmdWord),
    s.driven.rst = false → s.presented = some c → (s.driven.cmdValid = false ∨ s.driven.cmdData ≠ c) →
    step s = .refused .handshakeBroken

/-- 70_reset_and_hazards R246 to R248, 30_encoding R77: a step with `rst` = 1 resets the block whatever the engine is doing;
the command in progress and its response are gone, the numbering restarts, and every byte of the table is unspecified, at
a draw other than the last (the draw counter is the model's, log entry 2). That it holds also when the host breaks the handshake
duty at that step is the model's inference (log entry 7). -/
def Obligations.HardwareResetFromEveryState : Prop :=
  ∀ s : State, s.driven.rst = true →
    ∃ t, step s = .next t ∧ t.mode = .unconfigured ∧ t.tableLen = 0#64 ∧ t.blockCount = 0#64 ∧
      t.sampleSize = 0#64 ∧ t.addCount = 0#64 ∧ t.engine = .idle ∧ t.accepted = 0 ∧ t.responses = [] ∧
      t.rspValid = false ∧ (t.driven.rst = false → t.cmdReady = true) ∧
      t.table.draw ≠ s.table.draw ∧ (∀ a, t.table.readByte a = Config.tableDraw t.table.draw a) ∧
      t.log2NbMax = s.log2NbMax ∧ t.inputs = s.inputs.tail

/-- 10_state R35, first column: the state after hardware reset; every byte of the table unspecified. -/
def Obligations.ResetStateValues : Prop :=
  State.reset.mode = .unconfigured ∧ State.reset.tableLen = 0#64 ∧ State.reset.blockCount = 0#64 ∧
    State.reset.sampleSize = 0#64 ∧ State.reset.addCount = 0#64 ∧ State.reset.engine = .idle ∧
    State.reset.rspValid = false ∧ State.reset.cmdReady = true ∧
    ∀ a, State.reset.table.readByte a = Config.tableDraw State.reset.table.draw a

/-! ## Invariants and whole-machine rules -/

/-- The invariant (10_state R34, 30_encoding R81) holds right after reset. -/
def Obligations.ResetMeetsTheInvariant : Prop := State.reset.Inv

/-- Every step keeps the invariant: the sizes stay consistent powers of two, the count stays below the threshold, exactly
the words in use have been written, and every accepted command is answered once (10_state R34, 30_encoding R81). -/
def Obligations.StepKeepsTheInvariant : Prop :=
  ∀ s t : State, s.Inv → step s = .next t → t.Inv

/-- Every step keeps, in every state, the form in which the model stores the table: the addresses listed rise strictly. The form
is the model's own choice (log entry 2), no rule of the spec. -/
def Obligations.StepKeepsTheTableCanonical : Prop :=
  ∀ s t : State, s.table.wf → step s = .next t → t.table.wf

/-- 60_exceptions R221, 41_index_mapper R130: no step touches a table word that does not exist. -/
def Obligations.NoStepFaultsUnderTheInvariant : Prop :=
  ∀ (s : State) (f : Fault), s.Inv → step s ≠ .fault f

/-- 10_state R24 to R27, 43_commands R168: once READY, only hardware reset changes the mode or a size register. -/
def Obligations.ReadyConfigurationIsFixed : Prop :=
  ∀ s t : State, s.mode = .ready → s.driven.rst = false → step s = .next t →
    t.mode = .ready ∧ t.tableLen = s.tableLen ∧ t.blockCount = s.blockCount ∧ t.sampleSize = s.sampleSize

/-- 10_state R36: without hardware reset, ADD_COUNT and the table change only at the execution of a RECORD in READY mode or
of an INIT in UNCONFIGURED mode. -/
def Obligations.OnlyRecordAndInitWriteCounts : Prop :=
  ∀ s t : State, s.driven.rst = false → step s = .next t → (t.addCount ≠ s.addCount ∨ t.table ≠ s.table) →
    s.engine = .busy ∧
      ((s.mode = .ready ∧ ∃ h, decode s.cmdReg = .record h) ∨
        (s.mode = .unconfigured ∧ ∃ cap, decode s.cmdReg = .init cap))

/-- 20_memory R46, 10_state R29: in READY mode no step writes a byte of a word at NW or above, other than hardware
reset. -/
def Obligations.WordsAboveThoseInUseAreNeverWritten : Prop :=
  ∀ s t : State, s.Inv → s.mode = .ready → s.driven.rst = false → step s = .next t →
    ∀ a, 8 * (8 * s.blockCount.toNat) ≤ a → t.table.readByte a = s.table.readByte a

/-- 60_exceptions R216: a command whose response is not OK changes nothing but the engine and the response register, and
its data is 0. That the latched command word keeps its value too is the model's choice (log entry 19), and the draw, the
drives and the list of responses are the model's fields (log entries 2, 5 and 9). -/
def Obligations.ErrorResponseChangesNoState : Prop :=
  ∀ (i : Instr) (s t : State), exec i s = .next t → rspStatus t.rspReg ≠ 0b00#2 →
    t = { s with engine := .resp, rspReg := t.rspReg } ∧ rspData t.rspReg = 0#4

/-- 60_exceptions R217, the whole cause table: which command raises which status under which condition, and that nothing
is recorded. -/
def Obligations.StatusFollowsTheCauseTable : Prop :=
  ∀ (i : Instr) (s t : State), exec i s = .next t →
    (rspStatus t.rspReg = 0b01#2 ↔
      s.mode = .unconfigured ∧ ∃ cap, i = .init cap ∧ (cap < 1 ∨ 32 * 2 ^ s.log2NbMax.val < cap)) ∧
    (rspStatus t.rspReg = 0b10#2 ↔
      (s.mode = .ready ∧ ∃ cap, i = .init cap) ∨
        (s.mode = .unconfigured ∧ ∃ h, i = .record h ∨ i = .estimate h)) ∧
    (rspStatus t.rspReg = 0b11#2 ↔ ∃ arg, i = .rsvd3 arg) ∧
    (rspStatus t.rspReg ≠ 0b00#2 → s.SameSketch t)

/-- 30_encoding R90: only an ESTIMATE with status OK has a data field other than 0. -/
def Obligations.DataComesOnlyFromEstimate : Prop :=
  ∀ (i : Instr) (s t : State), exec i s = .next t → rspData t.rspReg ≠ 0#4 →
    rspStatus t.rspReg = 0b00#2 ∧ s.mode = .ready ∧ ∃ h, i = .estimate h

/-- 30_encoding R83: a command in BUSY reaches RESP, whatever its operands, under the invariant; that it takes one step of
the model is the model's choice (log entry 4). -/
def Obligations.BusyCommandReachesItsResponse : Prop :=
  ∀ s : State, s.Inv → s.driven.rst = false → s.handshakeBroken = false → s.engine = .busy →
    ∃ t, step s = .next t ∧ t.engine = .resp

/-- 30_encoding R81, R82: without hardware reset a step accepts a command only from IDLE, produces a response only from
BUSY, and transfers one only from RESP, appending it to those before it. -/
def Obligations.EachStepIsOnePhaseOfOneCommand : Prop :=
  ∀ s t : State, s.driven.rst = false → step s = .next t →
    (t.engine = s.engine ∧ t.accepted = s.accepted ∧ t.responses = s.responses) ∨
    (s.engine = .idle ∧ t.engine = .busy ∧ t.accepted = s.accepted + 1 ∧ t.responses = s.responses) ∨
    (s.engine = .busy ∧ t.engine = .resp ∧ t.accepted = s.accepted ∧ t.responses = s.responses) ∨
    (s.engine = .resp ∧ t.engine = .idle ∧ t.accepted = s.accepted ∧ t.responses = s.responses ++ [s.rspReg])

/-- 70_reset_and_hazards R247: no response and no register depends on the unspecified table contents. Two states that
differ only in the draw of those contents step alike, and differ afterwards only in the draw; the contents themselves are
an uninterpreted constant, so this holds for every choice of them. -/
def Obligations.UnspecifiedContentsNeverMatter : Prop :=
  ∀ (s : State) (n : Nat), s.Inv →
    (∀ t, step s = .next t →
      ∃ k, step { s with table := { s.table with draw := n } } = .next { t with table := { t.table with draw := k } }) ∧
    (∀ r, step s = .refused r → step { s with table := { s.table with draw := n } } = .refused r)

/-- The parameter LOG2_NB_MAX (00_scope R6) is the same for the whole life of the block: no step changes it (log entry
1). -/
def Obligations.BuildParameterNeverChanges : Prop :=
  ∀ s t : State, step s = .next t → t.log2NbMax = s.log2NbMax

/-! ## INIT -/

/-- 43_commands R165, all of it: ERR_STATE in READY mode, ERR_CAPACITY for a capacity out of range, and else the sizes for k =
max(5, Clog2(cap)), the count 0, the words in use 0, the words above left as they were, READY and OK. In the two error
clauses, which are whole-state equations: that the latched command word is kept too is the model's choice (log entry 19), no
word of the rule; the draw, the drives and the list of responses, also kept, are the model's fields (log entries 2, 5 and 9).
-/
def Obligations.InitMeaning : Prop :=
  ∀ (cap : Int) (s : State),
    (s.mode = .ready → exec (.init cap) s = .next { s with engine := .resp, rspReg := 0x20#6 }) ∧
    (s.mode = .unconfigured → (cap < 1 ∨ 32 * 2 ^ s.log2NbMax.val < cap) →
      exec (.init cap) s = .next { s with engine := .resp, rspReg := 0x10#6 }) ∧
    (s.mode = .unconfigured → 1 ≤ cap → cap ≤ 32 * 2 ^ s.log2NbMax.val →
      ∃ k t, 5 ≤ k ∧ cap ≤ 2 ^ k ∧ (k = 5 ∨ 2 ^ (k - 1) < cap) ∧ exec (.init cap) s = .next t ∧
        t.mode = .ready ∧ t.tableLen.toNat = 2 ^ k ∧ t.blockCount.toNat = 2 ^ (k - 5) ∧
        t.sampleSize.toNat = 10 * 2 ^ k ∧ t.addCount = 0#64 ∧
        (∀ w, w < 2 ^ (k - 2) → t.table.readWord w = 0#64) ∧
        (∀ w, 2 ^ (k - 2) ≤ w → t.table.readWord w = s.table.readWord w) ∧
        t.engine = .resp ∧ t.rspReg = 0x00#6)

/-- 60_exceptions R218: in UNCONFIGURED mode every non-positive capacity and every one above CAP_MAX is answered
ERR_CAPACITY, and the block stays UNCONFIGURED. -/
def Obligations.IllegalCapacityFailsConstruction : Prop :=
  ∀ (cap : Int) (s : State), s.mode = .unconfigured → (cap ≤ 0 ∨ 32 * 2 ^ s.log2NbMax.val < cap) →
    ∃ t, exec (.init cap) s = .next t ∧ rspStatus t.rspReg = 0b01#2 ∧ t.mode = .unconfigured

/-- 60_exceptions R219, 43_commands R168: RECORD and ESTIMATE in UNCONFIGURED mode and INIT in READY mode are answered
ERR_STATE and change nothing. That the latched command word is kept too is the model's choice (log entry 19), no word of the
rules; the draw, the drives and the list of responses, also kept, are the model's fields (log entries 2, 5 and 9). -/
def Obligations.WrongModeAnswersErrState : Prop :=
  ∀ (s : State) (h : Word) (cap : Int),
    (s.mode = .unconfigured →
      exec (.record h) s = .next { s with engine := .resp, rspReg := 0x20#6 } ∧
      exec (.estimate h) s = .next { s with engine := .resp, rspReg := 0x20#6 }) ∧
    (s.mode = .ready → exec (.init cap) s = .next { s with engine := .resp, rspReg := 0x20#6 })

/-- INIT's frame (10_state R36): beside the mode, the sizes, the count and the table it writes only the engine and the
response register; a byte outside the words it brings into use reads as before, and every byte does if INIT does not
succeed. Two clauses are the model's choices and no rule of the spec: that the latched command word keeps its value (log entry
19), and that the draw of the unwritten bytes is the same (log entry 2). The host's drives and the list of responses, also
kept, are the model's fields (log entries 5 and 9). -/
def Obligations.InitFrame : Prop :=
  ∀ (cap : Int) (s t : State), exec (.init cap) s = .next t →
    s.SameSurroundings t ∧ t.engine = .resp ∧ t.table.draw = s.table.draw ∧
    (∀ a, 8 * (8 * blockCountOf (log2Tl cap.toNat)) ≤ a → t.table.readByte a = s.table.readByte a) ∧
    (rspStatus t.rspReg ≠ 0b00#2 → s.SameSketch t ∧ ∀ a, t.table.readByte a = s.table.readByte a)

/-! ## RECORD -/

/-- 43_commands R170, R171, 42_counter_table R143: RECORD that does not reach the threshold adds 1, saturating at 15, to the
item's four counters, leaves every other counter in use alone, adds 1 to ADD_COUNT exactly if a counter changed, and
answers OK. -/
def Obligations.RecordWithoutAging : Prop :=
  ∀ (h : Word) (s : State), s.Inv → s.mode = .ready →
    ¬ (s.effective h ∧ s.addCount.toNat + 1 = s.sampleSize.toNat) →
    ∃ t, exec (.record h) s = .next t ∧ t.engine = .resp ∧ t.rspReg = 0x00#6 ∧
      (∀ b o, b < s.blockCount.toNat → o < 128 → t.counterAt b o = s.recorded h b o) ∧
      t.addCount.toNat = if s.effective h then s.addCount.toNat + 1 else s.addCount.toNat

/-- 43_commands R170, 44_aging R196 to R200: the effective RECORD that brings ADD_COUNT to SAMPLE_SIZE halves every counter
in use, those it has just incremented among them, and leaves ADD_COUNT at AgeCount of the threshold and of the number of
counters that were odd; it answers OK. -/
def Obligations.RecordWithAging : Prop :=
  ∀ (h : Word) (s : State), s.Inv → s.mode = .ready →
    s.effective h → s.addCount.toNat + 1 = s.sampleSize.toNat →
    ∃ t, exec (.record h) s = .next t ∧ t.engine = .resp ∧ t.rspReg = 0x00#6 ∧
      (∀ b o, b < s.blockCount.toNat → o < 128 → t.counterAt b o = s.recorded h b o / 2) ∧
      t.addCount.toNat = (s.sampleSize.toNat - s.oddRecorded h / 2) / 2

/-- 44_aging R199: after a pass ADD_COUNT is at least 2/5 of SAMPLE_SIZE and at most half of it. -/
def Obligations.AgingLeavesTheCountBetweenTwoFifthsAndHalf : Prop :=
  ∀ (h : Word) (s t : State), s.Inv → s.mode = .ready →
    s.effective h → s.addCount.toNat + 1 = s.sampleSize.toNat → exec (.record h) s = .next t →
    2 * s.sampleSize.toNat ≤ 5 * t.addCount.toNat ∧ 2 * t.addCount.toNat ≤ s.sampleSize.toNat

/-- 43_commands R172 (a): when all four counters are 15, RECORD writes nothing, does not count, runs no pass, and still
answers OK. That the latched command word is kept too is the model's choice (log entry 19), no word of the rule; the draw, the
drives and the list of responses, also kept, are the model's fields (log entries 2, 5 and 9). -/
def Obligations.SaturatedRecordChangesNothing : Prop :=
  ∀ (h : Word) (s : State), s.Inv → s.mode = .ready → (∀ d : Fin 4, s.table.at (s.positions h d) = 15#4) →
    exec (.record h) s = .next { s with engine := .resp, rspReg := 0x00#6 }

/-- RECORD's frame (10_state R36, 20_memory R55): beside ADD_COUNT and the table it writes only the engine and the response
register; without a pass every byte outside the item's four words reads as before, with one every byte outside the words
in use and the item's words does; in UNCONFIGURED mode every byte does. Two clauses are the model's choices and no rule of the
spec: that the latched command word keeps its value (log entry 19), and that the draw of the unwritten bytes is the same (log
entry 2). The host's drives and the list of responses, also kept, are the model's fields (log entries 5 and 9). -/
def Obligations.RecordFrame : Prop :=
  ∀ (h : Word) (s t : State), exec (.record h) s = .next t →
    s.SameSurroundings t ∧ t.engine = .resp ∧ t.mode = s.mode ∧ t.tableLen = s.tableLen ∧
    t.blockCount = s.blockCount ∧ t.sampleSize = s.sampleSize ∧ t.table.draw = s.table.draw ∧
    (s.ages h = false → ∀ a, (∀ d, a / 8 ≠ (s.positions h d).word) → t.table.readByte a = s.table.readByte a) ∧
    (∀ a, 8 * s.nwInUse ≤ a → (∀ d, a / 8 ≠ (s.positions h d).word) → t.table.readByte a = s.table.readByte a) ∧
    (s.mode = .unconfigured → t.addCount = s.addCount ∧ t.table = s.table)

/-! ## ESTIMATE and RSVD3 -/

/-- 43_commands R175: ERR_STATE in UNCONFIGURED mode; else OK with the minimum of the item's four counters; nothing is written
but the engine and the response register, in every case. That the latched command word is kept too is the model's choice (log
entry 19), no word of the rule; the draw, the drives and the list of responses, also kept, are the model's fields (log entries
2, 5 and 9). -/
def Obligations.EstimateMeaning : Prop :=
  ∀ (h : Word) (s : State),
    (s.mode = .unconfigured → exec (.estimate h) s = .next { s with engine := .resp, rspReg := 0x20#6 }) ∧
    (s.Inv → s.mode = .ready →
      ∃ c : Nibble, exec (.estimate h) s = .next { s with engine := .resp, rspReg := (0b00#2 ++ c : BitVec (2 + 4)) } ∧
        (∀ d : Fin 4, c.toNat ≤ (s.table.at (s.positions h d)).toNat) ∧
        (∃ d : Fin 4, c = s.table.at (s.positions h d)))

/-- 43_commands R180: RSVD3 answers `{ERR_ILLEGAL, 0}` = 0x30 in either mode, whatever its operand, and changes no state. That
the latched command word is kept too is the model's choice (log entry 19), no word of the rule; the draw, the drives and the
list of responses, also kept, are the model's fields (log entries 2, 5 and 9). -/
def Obligations.ReservedCodeAnswersErrIllegal : Prop :=
  ∀ (arg : Word) (s : State), exec (.rsvd3 arg) s = .next { s with engine := .resp, rspReg := 0x30#6 }

/-- The frame of the two commands that write nothing (20_memory R55, 10_state R36): everything but the engine and the
response register is as before, every byte of the table among it. That the latched command word is among it too is the
model's choice (log entry 19), and the draw, the drives and the list of responses are the model's fields (log entries 2, 5
and 9). -/
def Obligations.EstimateAndReservedFrame : Prop :=
  ∀ (x : Word) (i : Instr) (s t : State), (i = .estimate x ∨ i = .rsvd3 x) → exec i s = .next t →
    t = { s with engine := .resp, rspReg := t.rspReg } ∧ ∀ a, t.table.readByte a = s.table.readByte a

/-- 60_exceptions R224: ERR_ILLEGAL before ERR_STATE before ERR_CAPACITY, on its three examples (the priority); the unchanged
sketch is R216 and the data 0 is 30_encoding R90. That the latched command word is kept too is the model's choice (log entry
19), no word of the rules; the draw, the drives and the list of responses, also kept, are the model's fields (log entries 2, 5
and 9). -/
def Obligations.ErrorPriorityExamples : Prop :=
  ∀ (s : State) (arg : Word),
    (s.mode = .unconfigured → exec (.rsvd3 arg) s = .next { s with engine := .resp, rspReg := 0x30#6 }) ∧
    (s.mode = .ready → exec (.init 0) s = .next { s with engine := .resp, rspReg := 0x20#6 }) ∧
    (s.mode = .unconfigured → exec (.init 0) s = .next { s with engine := .resp, rspReg := 0x10#6 })

/-! ## Hash Mixer and Index Generator -/

/-- 40_hash_mixer R112: `Fmix64` is a bijection on u64. -/
def Obligations.FinalizerIsABijection : Prop := Function.Bijective fmix64

/-- 40_hash_mixer R113: `Row` multiplies by the row's constant modulo 2^64 and folds the high half onto the low half: bits
31:0 are `t[31:0] ^ t[63:32]` and bits 63:32 are `t[63:32]`. -/
def Obligations.RowFoldsTheHighHalfOntoTheLow : Prop :=
  ∀ (b : Word) (d : Fin 4),
    let t : Word := BitVec.ofNat 64 (b.toNat * (rowConst d).toNat)
    (rowHash b d).extractLsb' 0 32 = t.extractLsb' 0 32 ^^^ t.extractLsb' 32 32 ∧
      (rowHash b d).extractLsb' 32 32 = t.extractLsb' 32 32

/-- 40_hash_mixer R114: the four row constants; all are odd and pairwise distinct. -/
def Obligations.RowConstantsAreOddAndDistinct : Prop :=
  rowConst 0 = 0xC3A5C85C97CB3127#64 ∧ rowConst 1 = 0xB492B66FBE98F273#64 ∧ rowConst 2 = 0x9AE16A3B2F90404F#64 ∧
    rowConst 3 = 0xCBF29CE484222325#64 ∧ (∀ d, rowConst d % 2#64 = 1#64) ∧ (∀ d e, rowConst d = rowConst e → d = e)

/-- 40_hash_mixer R116 (a), (b), R115: `Fmix64(0)` and `Mix(0)` are zeros, the item 0 maps to block 0 and to the first counter of
each segment at every block count, and `Mix(1)` and `Mix(2^64-1)` are the rules' values. -/
def Obligations.MixerCorners : Prop :=
  fmix64 0#64 = 0#64 ∧ (∀ d, mix 0#64 d = 0#64) ∧
    (∀ (blockCount : Word) (d : Fin 4), pos 0#64 blockCount d = { word := 2 * d.val, nibble := 0 }) ∧
    mix 1#64 0 = 0x4E9730A32CE36F17#64 ∧ mix 1#64 1 = 0x928495B3B3344977#64 ∧
    mix 1#64 2 = 0xCC41DB089BE6699C#64 ∧ mix 1#64 3 = 0xB5F7017B58316027#64 ∧
    mix 0xFFFFFFFFFFFFFFFF#64 0 = 0x9B684786C0548881#64 ∧ mix 0xFFFFFFFFFFFFFFFF#64 1 = 0xBE0B35C69D1ED815#64 ∧
    mix 0xFFFFFFFFFFFFFFFF#64 2 = 0x822903C4F4BA98EB#64 ∧ mix 0xFFFFFFFFFFFFFFFF#64 3 = 0x1F871CB67CBC5E73#64

/-- 41_index_mapper R126 to R128: the word of row `d` is `8b + 2d + m_d[4]` and its nibble `m_d[3:0]`, with `b` the low
LOG2_NB bits of `m0[63:32]`. -/
def Obligations.PositionFormula : Prop :=
  ∀ (h blockCount : Word) (k : Nat), k ≤ 32 → blockCount.toNat = 2 ^ k → ∀ d : Fin 4,
    (pos h blockCount d).word =
      8 * ((mix h 0).toNat / 2 ^ 32 % 2 ^ k) + 2 * d.val + (mix h d).toNat / 16 % 2 ∧
    (pos h blockCount d).nibble.val = (mix h d).toNat % 16

/-- 41_index_mapper R130, R131: for every item and every legal block count the block index is below the block count, every
offset is at most 127, every position is in the table, the four words lie in the one block `b` with `w_d >> 1 = 4b + d`, and
they rise with the row, so they are pairwise distinct. -/
def Obligations.PositionsAreInBoundsAndSeparate : Prop :=
  ∀ (h blockCount : Word) (p : Config.Log2NbMax) (k : Nat), k ≤ p.val → blockCount.toNat = 2 ^ k →
    let b := blockIndex (mix h 0) blockCount
    b < blockCount.toNat ∧
      (∀ d : Fin 4, counterOffset (mix h d) d ≤ 127 ∧
        8 * b ≤ (pos h blockCount d).word ∧ (pos h blockCount d).word ≤ 8 * b + 7 ∧
        (pos h blockCount d).word / 2 = 4 * b + d.val ∧ (pos h blockCount d).nibble.val ≤ 15) ∧
      (∀ d e : Fin 4, d < e → (pos h blockCount d).word < (pos h blockCount e).word) ∧
      8 * b + 7 < 8 * blockCount.toNat ∧ 8 * blockCount.toNat ≤ nwMax p

/-- 40_hash_mixer R118: the positions depend only on bits `32+LOG2_NB-1 : 32` of `m0` and on bits `4:0` of the four mixed
hashes. -/
def Obligations.OnlyTheNamedMixBitsReachTheTable : Prop :=
  ∀ (h g blockCount : Word) (k : Nat), k ≤ 32 → blockCount.toNat = 2 ^ k →
    (mix h 0).toNat / 2 ^ 32 % 2 ^ k = (mix g 0).toNat / 2 ^ 32 % 2 ^ k →
    (∀ d : Fin 4, (mix h d).toNat % 32 = (mix g d).toNat % 32) → pos h blockCount = pos g blockCount

/-- 20_memory R48: the item's row-`d` counter is row `d` of the conceptual matrix, at column `32 b + m_d[4:0]`. -/
def Obligations.EachRowKeepsToItsSegment : Prop :=
  ∀ (m : Memory) (h blockCount : Word) (d : Fin 4),
    m.at (pos h blockCount d) = m.matrix d (32 * blockIndex (mix h 0) blockCount + (mix h d).toNat % 32)

/-! ## Counters and the table -/

/-- 42_counter_table R142: a counter below 15 goes up by 1 and no other nibble of the word changes; at 15 the word is returned
unchanged; and the rule's worked examples. -/
def Obligations.IncrementTouchesOneCounter : Prop :=
  (∀ (v : Word) (n : Fin 16),
    ((nibGet v n).toNat < 15 →
      (nibInc v n).2 = true ∧ (nibGet (nibInc v n).1 n).toNat = (nibGet v n).toNat + 1 ∧
        ∀ m : Fin 16, m ≠ n → nibGet (nibInc v n).1 m = nibGet v m) ∧
    (¬ (nibGet v n).toNat < 15 → nibInc v n = (v, false))) ∧
  nibInc 0x00000000000000E0#64 1 = (0x00000000000000F0#64, true) ∧
  nibInc 0x00000000000000F0#64 1 = (0x00000000000000F0#64, false) ∧
  nibInc 0x00000000000000F0#64 2 = (0x00000000000001F0#64, true)

/-- 42_counter_table R144: the packed halving by shift and mask is, lane by lane, the floor of half of each counter. -/
def Obligations.HalvingIsLaneByLane : Prop :=
  (∀ v : Word, halveWord v = (v >>> 1) &&& 0x7777777777777777#64) ∧
  (∀ (v : Word) (n : Fin 16), (nibGet (halveWord v) n).toNat = (nibGet v n).toNat / 2) ∧
  halveWord 0x0123456789ABCDEF#64 = 0x0011223344556677#64 ∧ halveWord 0xFFFFFFFFFFFFFFFF#64 = 0x7777777777777777#64 ∧
  halveWord 0x0000000000000010#64 = 0#64

/-- 42_counter_table R145: the odd count of a word is the number of 1 bits left by the mask, 0 to 16, and so the number of its
counters that are odd. -/
def Obligations.OddCountCountsOddCounters : Prop :=
  (∀ v : Word, oddCount v = (List.range 64).countP (fun i => (v &&& 0x1111111111111111#64).getLsbD i) ∧ oddCount v ≤ 16 ∧
    oddCount v = (List.finRange 16).countP fun n => decide ((nibGet v n).toNat % 2 = 1)) ∧
  oddCount 0x0123456789ABCDEF#64 = 8 ∧ oddCount 0xFFFFFFFFFFFFFFFF#64 = 16 ∧ oddCount 0xEEEEEEEEEEEEEEEE#64 = 0 ∧
  oddCount 0x0000000000000010#64 = 1

/-- 42_counter_table R146, 44_aging R204: the scan of `n` blocks halves every counter of theirs, leaves every other word
alone, and returns the number of their counters that were odd. -/
def Obligations.ScanHalvesEveryCounterAndCountsTheOdd : Prop :=
  ∀ (m : Memory) (n : Nat),
    (∀ b o, b < n → o < 128 → ((resetAll m (8 * n)).1.counter b o).toNat = (m.counter b o).toNat / 2) ∧
    (∀ w, 8 * n ≤ w → (resetAll m (8 * n)).1.readWord w = m.readWord w) ∧
    (resetAll m (8 * n)).2 =
      (List.range (128 * n)).countP fun j => decide ((m.counter (j / 128) (j % 128)).toNat % 2 = 1)

/-- 20_memory R49: in-block counter offset `o` is line bits `4o+3 : 4o`. -/
def Obligations.LineViewHoldsEveryCounter : Prop :=
  ∀ (m : Memory) (b o : Nat), o < 128 → (m.line b).extractLsb' (4 * o) 4 = m.counter b o

/-- 20_memory R51: byte `k` of block `b` holds in-block counter offset `2k` in its low four bits and offset `2k+1` in its
high four bits; the model keeps byte `k` of block `b` at address `64 b + k` (log entry 3). -/
def Obligations.ByteViewHoldsTwoCounters : Prop :=
  ∀ (m : Memory) (b k : Nat), k < 64 →
    (m.readByte (64 * b + k)).extractLsb' 0 4 = m.counter b (2 * k) ∧
    (m.readByte (64 * b + k)).extractLsb' 4 4 = m.counter b (2 * k + 1)

/-- 43_commands R166: `Clog2(c)` is the least `k` with `2^k >= c`. -/
def Obligations.ClogIsTheLeastExponent : Prop :=
  ∀ c k : Nat, 1 ≤ c → (clog2 c ≤ k ↔ c ≤ 2 ^ k)

/-! ## Properties the rules give -/

/-- 43_commands R182 (b), (c), R176: a RECORD that runs no pass raises its own item's estimate by exactly 1, saturating at 15;
from a fresh table an item recorded once reads 1, and an item at 15 stays there. -/
def Obligations.RecordRaisesItsOwnEstimate : Prop :=
  ∀ (h : Word) (s : State), s.Inv → s.mode = .ready →
    ¬ (s.effective h ∧ s.addCount.toNat + 1 = s.sampleSize.toNat) →
    ∃ t, exec (.record h) s = .next t ∧ (t.estimateOf h).toNat = min ((s.estimateOf h).toNat + 1) 15

/-- 43_commands R182 (e), 44_aging R202: a RECORD that runs no pass lowers no item's estimate. -/
def Obligations.EstimatesNeverFallWithinAnEpoch : Prop :=
  ∀ (h g : Word) (s : State), s.Inv → s.mode = .ready →
    ¬ (s.effective h ∧ s.addCount.toNat + 1 = s.sampleSize.toNat) →
    ∃ t, exec (.record h) s = .next t ∧ (s.estimateOf g).toNat ≤ (t.estimateOf g).toNat

/-- 44_aging R203, 43_commands R171: the RECORD that reaches the threshold leaves every item's estimate, its own item's among them,
at half, rounded down, of what it was before the pass, that is once the RECORD's own increments were made. -/
def Obligations.AgingPassHalvesEveryEstimate : Prop :=
  ∀ (h : Word) (s : State), s.Inv → s.mode = .ready →
    s.effective h → s.addCount.toNat + 1 = s.sampleSize.toNat →
    ∃ t, exec (.record h) s = .next t ∧
      ∀ g, (t.estimateOf g).toNat = ((s.counted h).estimateOf g).toNat / 2

/-- 44_aging R204: after the RECORD that runs the pass no counter in use is above 7, and a counter the RECORD left at 0 is
still 0. -/
def Obligations.NoCounterIsSaturatedAfterAging : Prop :=
  ∀ (h : Word) (s t : State), s.Inv → s.mode = .ready →
    s.effective h → s.addCount.toNat + 1 = s.sampleSize.toNat → exec (.record h) s = .next t →
    ∀ b o, b < s.blockCount.toNat → o < 128 →
      t.counterAt b o ≤ 7 ∧ (s.recorded h b o = 15 → t.counterAt b o = 7) ∧
        (s.recorded h b o = 0 → t.counterAt b o = 0)
end

