-- ==== Sys2Proof/Laws/Memory.lean ====
section
/-! SUPPORT. The laws of the counter table: read after write, the canonical form, the addresses listed, and one lemma for each scan
(20_memory; 42_counter_table R146, R147). -/

namespace Sys2Proof.Machine

/-! ## Cells -/

@[simp] theorem lookup_put_self (c : List Host.Cell) (a : Nat) (b : Byte) : lookup (put c a b) a = some b := by
  induction c with
  | nil => simp [put, lookup]
  | cons p rest ih =>
    obtain ⟨k, v⟩ := p
    rcases Nat.lt_trichotomy a k with h | h | h
    · simp [put, lookup, h]
    · simp [put, lookup, h]
    · have : ¬ a < k := by omega
      have : a ≠ k := by omega
      simp [put, lookup, *]

theorem lookup_put_ne (c : List Host.Cell) {a x : Nat} (b : Byte) (hx : x ≠ a) : lookup (put c a b) x = lookup c x := by
  induction c with
  | nil => simp [put, lookup, hx]
  | cons p rest ih =>
    obtain ⟨k, v⟩ := p
    rcases Nat.lt_trichotomy a k with h | h | h
    · simp [put, lookup, h, hx]
    · subst h; simp [put, lookup, hx]
    · have : ¬ a < k := by omega
      have : a ≠ k := by omega
      simp [put, lookup, *]

theorem mem_put {c : List Host.Cell} {a : Nat} {b : Byte} {p : Host.Cell} (hp : p ∈ put c a b) : p = (a, b) ∨ p ∈ c := by
  induction c with
  | nil => simpa [put] using hp
  | cons q rest ih =>
    obtain ⟨k, v⟩ := q
    unfold put at hp
    split at hp
    · simpa using hp
    · split at hp
      · rcases List.mem_cons.mp hp with h | h
        · exact .inl h
        · exact .inr (List.mem_cons_of_mem _ h)
      · rcases List.mem_cons.mp hp with h | h
        · exact .inr (by simp [h])
        · exact (ih h).imp id (List.mem_cons_of_mem _)

theorem put_rising {c : List Host.Cell} (a : Nat) (b : Byte) (hc : c.Pairwise fun p q => p.1 < q.1) :
    (put c a b).Pairwise fun p q => p.1 < q.1 := by
  induction c with
  | nil => simp [put]
  | cons q rest ih =>
    obtain ⟨k, v⟩ := q
    obtain ⟨hk, hr⟩ := List.pairwise_cons.mp hc
    unfold put
    split
    · rename_i h
      refine List.pairwise_cons.mpr ⟨fun p hp => ?_, hc⟩
      rcases List.mem_cons.mp hp with rfl | hp
      · exact h
      · exact Nat.lt_trans h (hk p hp)
    · split
      · rename_i h
        subst h
        exact List.pairwise_cons.mpr ⟨fun p hp => hk p hp, hr⟩
      · refine List.pairwise_cons.mpr ⟨fun p hp => ?_, ih hr⟩
        rcases mem_put hp with rfl | hp
        · simp only; omega
        · exact hk p hp

/-- An address is listed exactly if it is among the addresses. -/
theorem lookup_isSome (c : List Host.Cell) (a : Nat) : (lookup c a).isSome = true ↔ a ∈ c.map Prod.fst := by
  induction c with
  | nil => simp [lookup]
  | cons q rest ih =>
    obtain ⟨k, v⟩ := q
    by_cases h : a = k <;> simp_all [lookup]

/-- Writing an address already listed lists no other. -/
theorem map_fst_put_of_mem {c : List Host.Cell} {a : Nat} (b : Byte) (hc : c.Pairwise fun p q => p.1 < q.1)
    (ha : a ∈ c.map Prod.fst) : (put c a b).map Prod.fst = c.map Prod.fst := by
  induction c with
  | nil => simp at ha
  | cons q rest ih =>
    obtain ⟨k, v⟩ := q
    obtain ⟨hk, hr⟩ := List.pairwise_cons.mp hc
    rw [List.map_cons, List.mem_cons] at ha
    rcases ha with h | h
    · subst h; simp [put]
    · obtain ⟨p, hp, rfl⟩ := List.mem_map.mp h
      have := hk p hp
      have h1 : ¬ p.1 < k := by omega
      have h2 : p.1 ≠ k := by omega
      simp [put, h1, h2, ih hr h]

/-- Writing an address above all those listed lists it last. -/
theorem map_fst_put_of_above {c : List Host.Cell} {a : Nat} (b : Byte) (ha : ∀ k ∈ c.map Prod.fst, k < a) :
    (put c a b).map Prod.fst = c.map Prod.fst ++ [a] := by
  induction c with
  | nil => simp [put]
  | cons q rest ih =>
    obtain ⟨k, v⟩ := q
    have hk : k < a := ha k (by simp)
    have h1 : ¬ a < k := by omega
    have h2 : a ≠ k := by omega
    simp [put, h1, h2, ih fun x hx => ha x (by simpa using .inr (by simpa using hx))]

/-! ## Bytes -/

@[simp] theorem Memory.writeByte_draw (m : Memory) (a : Nat) (b : Byte) : (m.writeByte a b).draw = m.draw := rfl

@[simp] theorem Memory.readByte_writeByte_self (m : Memory) (a : Nat) (b : Byte) : (m.writeByte a b).readByte a = b := by
  simp [readByte, writeByte]

theorem Memory.readByte_writeByte_ne (m : Memory) {a x : Nat} (b : Byte) (hx : x ≠ a) :
    (m.writeByte a b).readByte x = m.readByte x := by
  simp [readByte, writeByte, lookup_put_ne _ _ hx]

theorem Memory.writeByte_wf {m : Memory} (a : Nat) (b : Byte) (hm : m.wf) : (m.writeByte a b).wf := put_rising a b hm

/-- A byte that nothing has written since the last hardware reset is a free value (70_reset_and_hazards R247). -/
@[simp] theorem Memory.readByte_unspecified (n a : Nat) : (Memory.unspecified n).readByte a = Config.tableDraw n a := rfl

@[simp] theorem Memory.unspecified_wf (n : Nat) : (Memory.unspecified n).wf := List.Pairwise.nil

/-! ## Words -/

theorem writeBytes_fold_draw (w : Nat) (v : Word) (l : List Nat) (m : Memory) :
    (l.foldl (fun t j => t.writeByte (byteAddr w j) (byteOf v j)) m).draw = m.draw := by
  induction l generalizing m with
  | nil => rfl
  | cons j l ih => simp [ih]

@[simp] theorem Memory.writeWord_draw (m : Memory) (w : Nat) (v : Word) : (m.writeWord w v).draw = m.draw :=
  writeBytes_fold_draw w v _ m

theorem writeBytes_fold_other (w : Nat) (v : Word) (l : List Nat) (m : Memory) {a : Nat}
    (ha : ∀ j ∈ l, a ≠ byteAddr w j) :
    (l.foldl (fun t j => t.writeByte (byteAddr w j) (byteOf v j)) m).readByte a = m.readByte a := by
  induction l generalizing m with
  | nil => rfl
  | cons j l ih =>
    rw [List.foldl_cons, ih _ fun i hi => ha i (List.mem_cons_of_mem _ hi),
      Memory.readByte_writeByte_ne _ _ (ha j (by simp))]

/-- A word write leaves every byte outside the word's eight alone. -/
theorem Memory.readByte_writeWord_other (m : Memory) {w a : Nat} (v : Word) (ha : a / 8 ≠ w) :
    (m.writeWord w v).readByte a = m.readByte a := by
  refine writeBytes_fold_other w v _ m fun j hj => ?_
  have : j < 8 := by simpa [bytesPerWord] using hj
  simp only [byteAddr, bytesPerWord]
  omega

/-- Byte `j` of a word just written is byte `j` of the value (20_memory R51). -/
theorem Memory.readByte_writeWord_self (m : Memory) (w : Nat) (v : Word) {j : Nat} (hj : j < 8) :
    (m.writeWord w v).readByte (byteAddr w j) = byteOf v j := by
  obtain ⟨l₁, l₂, hl, hn⟩ : ∃ l₁ l₂, List.range 8 = l₁ ++ j :: l₂ ∧ j ∉ l₂ := by
    obtain ⟨l₁, l₂, hl⟩ := List.append_of_mem (List.mem_range.mpr hj)
    refine ⟨l₁, l₂, hl, fun h => ?_⟩
    have := List.nodup_range (n := 8)
    rw [hl] at this
    exact (List.nodup_cons.mp (List.nodup_append.mp this).2.1).1 h
  unfold Memory.writeWord
  rw [show bytesPerWord = 8 from rfl, hl, List.foldl_append, List.foldl_cons, writeBytes_fold_other,
    Memory.readByte_writeByte_self]
  intro i hi h
  refine hn ?_
  have : i = j := by simp only [byteAddr, bytesPerWord] at h; omega
  exact this ▸ hi

theorem getLsbD_wordOf (b : Nat → Byte) {i : Nat} (hi : i < 64) : (wordOf b).getLsbD i = (b (i / 8)).getLsbD (i % 8) := by
  unfold wordOf
  rw [show i = 8 * (i / 8) + i % 8 by omega]
  have h1 : i / 8 < 8 := by omega
  have h2 : i % 8 < 8 := Nat.mod_lt _ (by decide)
  generalize i / 8 = q at *
  generalize i % 8 = r at *
  have e1 : (8 * q + r) / 8 = q := by omega
  have e2 : (8 * q + r) % 8 = r := by omega
  rw [e1, e2]
  have : q = 0 ∨ q = 1 ∨ q = 2 ∨ q = 3 ∨ q = 4 ∨ q = 5 ∨ q = 6 ∨ q = 7 := by omega
  simp only [BitVec.getLsbD_append]
  rcases this with rfl | rfl | rfl | rfl | rfl | rfl | rfl | rfl <;> repeat' split
  all_goals first
    | omega
    | (congr 1; omega)

/-- The bytes of a word make the word. -/
@[simp] theorem wordOf_byteOf (v : Word) : wordOf (byteOf v) = v := by
  refine BitVec.eq_of_getLsbD_eq fun i hi => ?_
  rw [getLsbD_wordOf _ hi, byteOf, BitVec.getLsbD_extractLsb']
  have : i % 8 < 8 := Nat.mod_lt _ (by decide)
  simp only [this, decide_true, Bool.true_and]
  congr 1
  omega

theorem wordOf_congr {b b' : Nat → Byte} (h : ∀ j < 8, b j = b' j) : wordOf b = wordOf b' := by
  simp [wordOf, h]

@[simp] theorem byteOf_wordOf (b : Nat → Byte) {j : Nat} (hj : j < 8) : byteOf (wordOf b) j = b j := by
  refine BitVec.eq_of_getLsbD_eq fun i hi => ?_
  rw [byteOf, BitVec.getLsbD_extractLsb', getLsbD_wordOf _ (by omega)]
  simp only [hi, decide_true, Bool.true_and]
  congr 2 <;> omega

/-- A word read gives what was written there (20_memory R56, R60). -/
@[simp] theorem Memory.readWord_writeWord_self (m : Memory) (w : Nat) (v : Word) : (m.writeWord w v).readWord w = v := by
  unfold Memory.readWord
  rw [wordOf_congr (b' := byteOf v) fun j hj => Memory.readByte_writeWord_self m w v hj, wordOf_byteOf]

/-- A word write leaves every other word alone (20_memory R56). -/
theorem Memory.readWord_writeWord_ne (m : Memory) {w x : Nat} (v : Word) (hx : x ≠ w) :
    (m.writeWord w v).readWord x = m.readWord x := by
  refine wordOf_congr fun j hj => Memory.readByte_writeWord_other m v ?_
  simp only [byteAddr, bytesPerWord]
  omega

theorem writeBytes_fold_wf (w : Nat) (v : Word) (l : List Nat) {m : Memory} (hm : m.wf) :
    (l.foldl (fun t j => t.writeByte (byteAddr w j) (byteOf v j)) m).wf := by
  induction l generalizing m with
  | nil => exact hm
  | cons j l ih => exact ih (m := m.writeByte _ _) (Memory.writeByte_wf _ _ hm)

/-- A word write keeps the canonical form. -/
theorem Memory.writeWord_wf {m : Memory} (w : Nat) (v : Word) (hm : m.wf) : (m.writeWord w v).wf :=
  writeBytes_fold_wf w v _ hm

/-- A table whose listed addresses are the first `n` is in canonical form. -/
theorem Memory.wf_of_addresses {m : Memory} {n : Nat} (h : m.addresses = List.range n) : m.wf := by
  have : m.addresses.Pairwise (· < ·) := h ▸ List.pairwise_lt_range
  exact List.pairwise_map.mp this

theorem writeBytes_fold_addresses (w : Nat) (v : Word) (l : List Nat) {m : Memory} {n : Nat}
    (hm : m.addresses = List.range n) (hl : ∀ j ∈ l, byteAddr w j < n) :
    (l.foldl (fun t j => t.writeByte (byteAddr w j) (byteOf v j)) m).addresses = List.range n := by
  induction l generalizing m with
  | nil => exact hm
  | cons j l ih =>
    refine ih (m := m.writeByte _ _) ?_ fun i hi => hl i (List.mem_cons_of_mem _ hi)
    rw [← hm]
    refine map_fst_put_of_mem _ (Memory.wf_of_addresses hm) ?_
    rw [← Memory.addresses, hm]
    exact List.mem_range.mpr (hl j (by simp))

/-- Writing a word among those written lists nothing new. -/
theorem Memory.writeWord_addresses {m : Memory} {w n : Nat} (v : Word) (hm : m.addresses = List.range (8 * n))
    (hw : w < n) : (m.writeWord w v).addresses = List.range (8 * n) := by
  refine writeBytes_fold_addresses w v _ hm fun j hj => ?_
  have : j < 8 := by simpa [bytesPerWord] using hj
  simp only [byteAddr, bytesPerWord]
  omega

theorem Memory.writeByte_addresses_next {m : Memory} {n : Nat} (b : Byte) (hm : m.addresses = List.range n) :
    (m.writeByte n b).addresses = List.range (n + 1) := by
  unfold Memory.addresses Memory.writeByte
  rw [map_fst_put_of_above, ← Memory.addresses, hm, List.range_succ]
  intro k hk
  rw [← Memory.addresses, hm] at hk
  exact List.mem_range.mp hk

/-- Writing the word after those written lists its eight bytes. -/
theorem Memory.writeWord_addresses_next {m : Memory} {n : Nat} (v : Word) (hm : m.addresses = List.range (8 * n)) :
    (m.writeWord n v).addresses = List.range (8 * (n + 1)) := by
  have h : ∀ k ≤ 8, ((List.range k).foldl (fun t j => t.writeByte (byteAddr n j) (byteOf v j)) m).addresses
      = List.range (8 * n + k) := by
    intro k
    induction k with
    | zero => intro _; simpa using hm
    | succ k ih =>
      intro hk
      rw [List.range_succ, List.foldl_append]
      exact Memory.writeByte_addresses_next _ (ih (by omega))
  exact h 8 (by omega)

/-- A byte that has been written does not depend on the unspecified contents. -/
theorem Memory.readByte_draw_irrelevant {m : Memory} {n a : Nat} (hm : m.addresses = List.range n) (ha : a < n) (k : Nat) :
    ({ m with draw := k } : Memory).readByte a = m.readByte a := by
  have : (lookup m.cells a).isSome = true := by
    rw [lookup_isSome, ← Memory.addresses, hm]
    exact List.mem_range.mpr ha
  obtain ⟨b, hb⟩ := Option.isSome_iff_exists.mp this
  simp [readByte, hb]

/-! ## The scans -/

@[simp] theorem clearAll_zero (m : Memory) : clearAll m 0 = m := rfl

theorem clearAll_succ (m : Memory) (n : Nat) : clearAll m (n + 1) = (clearAll m n).writeWord n 0#64 := by
  simp [clearAll, List.range_succ, List.foldl_append]

@[simp] theorem clearAll_draw (m : Memory) (n : Nat) : (clearAll m n).draw = m.draw := by
  induction n with
  | zero => rfl
  | succ n ih => simp [clearAll_succ, ih]

/-- `ClearAll` makes every word of the scan 0 and leaves every other word alone (42_counter_table R147). -/
theorem readWord_clearAll (m : Memory) (n w : Nat) :
    (clearAll m n).readWord w = if w < n then 0#64 else m.readWord w := by
  induction n with
  | zero => simp
  | succ n ih =>
    rw [clearAll_succ]
    by_cases h : w = n
    · subst h; simp
    · rw [Memory.readWord_writeWord_ne _ _ h, ih]
      simp only [show (w < n + 1) ↔ (w < n) by omega]

/-- `ClearAll` leaves every byte above the words of the scan alone. -/
theorem readByte_clearAll_above (m : Memory) {n a : Nat} (ha : 8 * n ≤ a) : (clearAll m n).readByte a = m.readByte a := by
  induction n with
  | zero => rfl
  | succ n ih => rw [clearAll_succ, Memory.readByte_writeWord_other _ _ (by omega), ih (by omega)]

theorem clearAll_wf {m : Memory} (n : Nat) (hm : m.wf) : (clearAll m n).wf := by
  induction n with
  | zero => exact hm
  | succ n ih => rw [clearAll_succ]; exact Memory.writeWord_wf _ _ ih

/-- From a table nothing has been written to, `ClearAll` writes exactly the bytes of the words of the scan. -/
theorem clearAll_addresses {m : Memory} (hm : m.addresses = []) (n : Nat) :
    (clearAll m n).addresses = List.range (8 * n) := by
  induction n with
  | zero => simpa using hm
  | succ n ih => rw [clearAll_succ]; exact Memory.writeWord_addresses_next _ ih

@[simp] theorem resetAll_zero (m : Memory) : resetAll m 0 = (m, 0) := rfl

theorem resetAll_succ (m : Memory) (n : Nat) : resetAll m (n + 1) = resetWord (resetAll m n) n := by
  simp [resetAll, List.range_succ, List.foldl_append]

@[simp] theorem resetAll_draw (m : Memory) (n : Nat) : (resetAll m n).1.draw = m.draw := by
  induction n with
  | zero => rfl
  | succ n ih => simp [resetAll_succ, resetWord, ih]

/-- `ResetAll` halves every word of the scan and leaves every other word alone (42_counter_table R146). -/
theorem readWord_resetAll (m : Memory) (n w : Nat) :
    (resetAll m n).1.readWord w = if w < n then halveWord (m.readWord w) else m.readWord w := by
  induction n with
  | zero => simp
  | succ n ih =>
    rw [resetAll_succ, resetWord]
    by_cases h : w = n
    · subst h; simp [ih]
    · rw [Memory.readWord_writeWord_ne _ _ h, ih]
      simp only [show (w < n + 1) ↔ (w < n) by omega]

/-- `ResetAll` returns the sum of the words' odd counts before the halving (42_counter_table R146). -/
theorem resetAll_odd (m : Memory) (n : Nat) :
    (resetAll m n).2 = ((List.range n).map fun w => oddCount (m.readWord w)).sum := by
  induction n with
  | zero => rfl
  | succ n ih => simp [resetAll_succ, resetWord, List.range_succ, ih, readWord_resetAll]

/-- `ResetAll` leaves every byte above the words of the scan alone. -/
theorem readByte_resetAll_above (m : Memory) {n a : Nat} (ha : 8 * n ≤ a) :
    (resetAll m n).1.readByte a = m.readByte a := by
  induction n with
  | zero => rfl
  | succ n ih =>
    rw [resetAll_succ, resetWord, Memory.readByte_writeWord_other _ _ (by omega), ih (by omega)]

theorem resetAll_wf {m : Memory} (n : Nat) (hm : m.wf) : (resetAll m n).1.wf := by
  induction n with
  | zero => exact hm
  | succ n ih => rw [resetAll_succ]; exact Memory.writeWord_wf _ _ ih

theorem resetAll_addresses {m : Memory} {n : Nat} (hm : m.addresses = List.range (8 * n)) {k : Nat} (hk : k ≤ n) :
    (resetAll m k).1.addresses = List.range (8 * n) := by
  induction k with
  | zero => exact hm
  | succ k ih => rw [resetAll_succ]; exact Memory.writeWord_addresses _ (ih (by omega)) (by omega)

/-! ## RECORD's four updates -/

theorem bump_draw (acc : Memory × Bool) (p : Position) : (bump acc p).1.draw = acc.1.draw := by
  unfold bump; split <;> simp

theorem bump_wf {acc : Memory × Bool} (p : Position) (h : acc.1.wf) : (bump acc p).1.wf := by
  unfold bump
  split
  · exact Memory.writeWord_wf _ _ h
  · exact h

theorem bump_readByte_other (acc : Memory × Bool) (p : Position) {a : Nat} (ha : a / 8 ≠ p.word) :
    (bump acc p).1.readByte a = acc.1.readByte a := by
  unfold bump
  split
  · exact Memory.readByte_writeWord_other _ _ ha
  · rfl

theorem bump_addresses {acc : Memory × Bool} {p : Position} {n : Nat} (h : acc.1.addresses = List.range (8 * n))
    (hp : p.word < n) : (bump acc p).1.addresses = List.range (8 * n) := by
  unfold bump
  split
  · exact Memory.writeWord_addresses _ h hp
  · exact h

/-- The word at a position after its own row's update is `NibInc` of the word before (42_counter_table R142): written back
if it changed, and the same word if not. -/
theorem bump_readWord_self (acc : Memory × Bool) (p : Position) :
    (bump acc p).1.readWord p.word = (nibInc (acc.1.readWord p.word) p.nibble).1 := by
  unfold bump nibInc
  split <;> simp

theorem bump_readWord_ne (acc : Memory × Bool) (p : Position) {w : Nat} (hw : w ≠ p.word) :
    (bump acc p).1.readWord w = acc.1.readWord w := by
  unfold bump
  split
  · exact Memory.readWord_writeWord_ne _ _ hw
  · rfl

theorem bump_changed (acc : Memory × Bool) (p : Position) :
    (bump acc p).2 = (acc.2 || decide ((acc.1.at p).toNat < 15)) := by
  unfold bump nibInc Memory.at ctrMax
  split <;> simp_all

@[simp] theorem bumpAll_draw (m : Memory) (p : Fin 4 → Position) : (bumpAll m p).1.draw = m.draw := by
  simp [bumpAll, rows, bump_draw]

theorem bumpAll_wf {m : Memory} (p : Fin 4 → Position) (h : m.wf) : (bumpAll m p).1.wf :=
  bump_wf _ (bump_wf _ (bump_wf _ (bump_wf _ h)))

/-- RECORD's four updates leave every byte outside the item's four words alone. -/
theorem bumpAll_readByte_other (m : Memory) (p : Fin 4 → Position) {a : Nat} (ha : ∀ d, a / 8 ≠ (p d).word) :
    (bumpAll m p).1.readByte a = m.readByte a := by
  simp only [bumpAll, rows, List.foldl_cons, List.foldl_nil, bump_readByte_other _ _ (ha _)]

theorem bumpAll_addresses {m : Memory} {p : Fin 4 → Position} {n : Nat} (h : m.addresses = List.range (8 * n))
    (hp : ∀ d, (p d).word < n) : (bumpAll m p).1.addresses = List.range (8 * n) :=
  bump_addresses (bump_addresses (bump_addresses (bump_addresses h (hp _)) (hp _)) (hp _)) (hp _)

/-- What a position holds does not change with an update of another word. -/
theorem bump_at_ne (acc : Memory × Bool) {p q : Position} (h : q.word ≠ p.word) : (bump acc p).1.at q = acc.1.at q := by
  unfold Memory.at
  rw [bump_readWord_ne _ _ h]

/-- RECORD's four updates leave every word but the item's four alone. -/
theorem bumpAll_readWord_other (m : Memory) (p : Fin 4 → Position) {w : Nat} (h : ∀ d, w ≠ (p d).word) :
    (bumpAll m p).1.readWord w = m.readWord w := by
  simp only [bumpAll, rows, List.foldl_cons, List.foldl_nil, bump_readWord_ne _ _ (h _)]

/-- When the four words are distinct, each of them is `NibInc` of the word before (43_commands R170, R171). -/
theorem bumpAll_readWord_self (m : Memory) (p : Fin 4 → Position) (hp : ∀ d e, d < e → (p d).word < (p e).word) (d : Fin 4) :
    (bumpAll m p).1.readWord (p d).word = (nibInc (m.readWord (p d).word) (p d).nibble).1 := by
  have h01 := hp 0 1 (by decide)
  have h12 := hp 1 2 (by decide)
  have h23 := hp 2 3 (by decide)
  simp only [bumpAll, rows, List.foldl_cons, List.foldl_nil]
  match d with
  | 0 => rw [bump_readWord_ne _ _ (by omega), bump_readWord_ne _ _ (by omega), bump_readWord_ne _ _ (by omega), bump_readWord_self]
  | 1 => rw [bump_readWord_ne _ _ (by omega), bump_readWord_ne _ _ (by omega), bump_readWord_self, bump_readWord_ne _ _ (by omega)]
  | 2 => rw [bump_readWord_ne _ _ (by omega), bump_readWord_self, bump_readWord_ne _ _ (by omega), bump_readWord_ne _ _ (by omega)]
  | 3 => rw [bump_readWord_self, bump_readWord_ne _ _ (by omega), bump_readWord_ne _ _ (by omega), bump_readWord_ne _ _ (by omega)]

/-- When the four words are distinct, a counter changes exactly if one of the four is below 15 (43_commands R170). -/
theorem bumpAll_changed (m : Memory) (p : Fin 4 → Position) (hp : ∀ d e, d < e → (p d).word < (p e).word) :
    (bumpAll m p).2 = true ↔ ∃ d, (m.at (p d)).toNat < 15 := by
  have h01 := hp 0 1 (by decide)
  have h12 := hp 1 2 (by decide)
  have h23 := hp 2 3 (by decide)
  simp only [bumpAll, rows, List.foldl_cons, List.foldl_nil, bump_changed]
  rw [bump_at_ne _ (by omega), bump_at_ne _ (by omega), bump_at_ne _ (by omega), bump_at_ne _ (by omega),
    bump_at_ne _ (by omega), bump_at_ne _ (by omega)]
  simp only [Bool.false_or, Bool.or_eq_true, decide_eq_true_eq]
  constructor
  · rintro (((h | h) | h) | h) <;> exact ⟨_, h⟩
  · rintro ⟨d, h⟩
    fin_cases d <;> simp at h <;> tauto

end Sys2Proof.Machine
end

