-- ==== Sys2Proof/Laws/Operands.lean ====
section
/-! SUPPORT. The laws of the mixer's xor-shift, of the index arithmetic and of the nibbles of a word (40_hash_mixer R112, 41_index_mapper
R126, R127; 42_counter_table R141, R142). -/

namespace Sys2Proof.Machine

/-- A xor-shift by half the width or more undoes itself (40_hash_mixer R112). -/
theorem xorShift_xorShift (x : Word) {n : Nat} (h : 32 ≤ n) : xorShift (xorShift x n) n = x := by
  unfold xorShift
  refine BitVec.eq_of_getLsbD_eq fun i hi => ?_
  simp only [BitVec.getLsbD_xor, BitVec.getLsbD_ushiftRight]
  have : x.getLsbD (n + (n + i)) = false := BitVec.getLsbD_of_ge _ _ (by omega)
  rw [this]
  cases x.getLsbD i <;> cases x.getLsbD (n + i) <;> rfl

/-- A mask of a power of two less one is a remainder. -/
theorem toNat_and_sub_one (x y : Word) {k : Nat} (h : y.toNat = 2 ^ k) : (x &&& (y - 1#64)).toNat = x.toNat % 2 ^ k := by
  have h1 : (y - 1#64).toNat = 2 ^ k - 1 := by
    rw [BitVec.toNat_sub]
    simp only [h, BitVec.toNat_ofNat]
    have := y.isLt
    have := Nat.pos_of_ne_zero (n := 2 ^ k) (by simp)
    omega
  rw [BitVec.toNat_and, h1, Nat.and_two_pow_sub_one_eq_mod]

/-- The block index keeps the low bits of the upper half of `m0` (41_index_mapper R126). -/
theorem blockIndex_of_two_pow (m0 blockCount : Word) {k : Nat} (h : blockCount.toNat = 2 ^ k) :
    blockIndex m0 blockCount = m0.toNat / 2 ^ 32 % 2 ^ k := by
  simp only [blockIndex, toNat_and_sub_one _ _ h, BitVec.toNat_ushiftRight, blockShift, Nat.shiftRight_eq_div_pow]

/-- The offset is the row's segment base and the low five bits of the mixed hash (41_index_mapper R127). -/
theorem counterOffset_eq (m : Word) (d : Fin 4) : counterOffset m d = 32 * d.val + m.toNat % 32 := by
  rw [counterOffset, segBase, BitVec.toNat_and]
  exact congrArg _ (Nat.and_two_pow_sub_one_eq_mod _ 5)

/-- A counter of a word as a number (42_counter_table R141). -/
theorem nibGet_toNat (v : Word) (n : Fin 16) : (nibGet v n).toNat = v.toNat / 2 ^ (4 * n.val) % 16 := by
  simp [nibGet, BitVec.extractLsb'_toNat, Nat.shiftRight_eq_div_pow]

/-- A counter of a word bit by bit (20_memory R50). -/
theorem getLsbD_nibGet (v : Word) (n : Fin 16) {i : Nat} (hi : i < 4) :
    (nibGet v n).getLsbD i = v.getLsbD (4 * n.val + i) := by
  simp [nibGet, hi]

/-- Adding 1 to a digit below 15 changes no other digit (42_counter_table R142). -/
theorem digit_add (x : Nat) {n : Nat} (m : Nat) (h : x / 2 ^ (4 * n) % 16 < 15) :
    (x + 2 ^ (4 * n)) / 2 ^ (4 * m) % 16 = if m = n then x / 2 ^ (4 * n) % 16 + 1 else x / 2 ^ (4 * m) % 16 := by
  have hp : ∀ k, 0 < 2 ^ k := fun k => Nat.pos_of_ne_zero (by simp)
  have split : ∀ a j, 2 ^ (4 * (a + 1 + j)) = 2 ^ (4 * a) * (16 * 2 ^ (4 * j)) := by
    intro a j
    rw [show 4 * (a + 1 + j) = 4 * a + (4 + 4 * j) by omega, Nat.pow_add, Nat.pow_add]
  rcases Nat.lt_trichotomy m n with hm | rfl | hm
  · rw [if_neg (by omega)]
    obtain ⟨j, rfl⟩ : ∃ j, n = m + 1 + j := ⟨n - m - 1, by omega⟩
    rw [split, Nat.add_mul_div_left _ _ (hp _)]
    omega
  · rw [if_pos rfl, Nat.add_div_right _ (hp _)]
    omega
  · rw [if_neg (by omega)]
    obtain ⟨j, rfl⟩ : ∃ j, m = n + 1 + j := ⟨m - n - 1, by omega⟩
    rw [split, ← Nat.div_div_eq_div_mul, ← Nat.div_div_eq_div_mul, Nat.add_div_right _ (hp _),
      ← Nat.div_div_eq_div_mul, ← Nat.div_div_eq_div_mul]
    have : (x / 2 ^ (4 * n) + 1) / 16 = x / 2 ^ (4 * n) / 16 := by omega
    simp only [this]

end Sys2Proof.Machine
end

