-- ==== Sys2Proof/Laws/PerInstr.lean ====
section
/-! SUPPORT. The family of statements about every instruction as syntax: its word belongs to its own row of the opcode map
(30_encoding R91), whatever its operand. -/

namespace Sys2Proof.Laws.OpcodeMap

/-- The instruction's word `c` has `(c & mask) == match` for its own row, and its arg field is its operand (30_encoding
R84, R91). -/
def Statement (i : Instr) : Prop := encode i &&& opMask = i.matchWord ∧ argField (encode i) = i.arg

theorem mask_append (op : BitVec 2) (arg : Word) :
    ((op ++ arg : BitVec (2 + 64)) : CmdWord) &&& opMask = (op ++ 0#64 : BitVec (2 + 64)) := by
  refine BitVec.eq_of_getLsbD_eq fun i hi => ?_
  have hm : opMask = (0b11#2 ++ 0#64 : BitVec (2 + 64)) := by decide
  rw [hm, BitVec.getLsbD_and, BitVec.getLsbD_append, BitVec.getLsbD_append, BitVec.getLsbD_append]
  by_cases h : i < 64
  · simp [h]
  · have : i - 64 = 0 ∨ i - 64 = 1 := by omega
    rcases this with e | e <;> simp [h, e]

theorem argField_append (op : BitVec 2) (arg : Word) : argField ((op ++ arg : BitVec (2 + 64)) : CmdWord) = arg := by
  refine BitVec.eq_of_getLsbD_eq fun i hi => ?_
  rw [argField, BitVec.getLsbD_extractLsb', BitVec.getLsbD_append]
  simp [hi]

theorem init (cap : Int) : Statement (.init cap) :=
  ⟨(mask_append opInit _).trans rfl, argField_append _ _⟩

theorem record (h : Word) : Statement (.record h) :=
  ⟨(mask_append opRecord _).trans rfl, argField_append _ _⟩

theorem estimate (h : Word) : Statement (.estimate h) :=
  ⟨(mask_append opEstimate _).trans rfl, argField_append _ _⟩

theorem rsvd3 (arg : Word) : Statement (.rsvd3 arg) :=
  ⟨(mask_append opRsvd3 _).trans rfl, argField_append _ _⟩

end Sys2Proof.Laws.OpcodeMap
end

