-- ==== Sys2Proof/Laws/State.lean ====
section
/-! SUPPORT. One lemma per field per update of State, so that no proof unfolds an update. -/

namespace Sys2Proof.Machine

/-! The response (30_encoding R82). -/

@[simp] theorem State.respond_mode (s : State) (st : Status) (data : Nibble) : (s.respond st data).mode = s.mode := rfl
@[simp] theorem State.respond_tableLen (s : State) (st : Status) (data : Nibble) : (s.respond st data).tableLen = s.tableLen := rfl
@[simp] theorem State.respond_blockCount (s : State) (st : Status) (data : Nibble) : (s.respond st data).blockCount = s.blockCount := rfl
@[simp] theorem State.respond_sampleSize (s : State) (st : Status) (data : Nibble) : (s.respond st data).sampleSize = s.sampleSize := rfl
@[simp] theorem State.respond_addCount (s : State) (st : Status) (data : Nibble) : (s.respond st data).addCount = s.addCount := rfl
@[simp] theorem State.respond_table (s : State) (st : Status) (data : Nibble) : (s.respond st data).table = s.table := rfl
@[simp] theorem State.respond_engine (s : State) (st : Status) (data : Nibble) : (s.respond st data).engine = .resp := rfl
@[simp] theorem State.respond_cmdReg (s : State) (st : Status) (data : Nibble) : (s.respond st data).cmdReg = s.cmdReg := rfl
@[simp] theorem State.respond_rspReg (s : State) (st : Status) (data : Nibble) : (s.respond st data).rspReg = rspWord st data := rfl
@[simp] theorem State.respond_accepted (s : State) (st : Status) (data : Nibble) : (s.respond st data).accepted = s.accepted := rfl
@[simp] theorem State.respond_responses (s : State) (st : Status) (data : Nibble) : (s.respond st data).responses = s.responses := rfl
@[simp] theorem State.respond_inputs (s : State) (st : Status) (data : Nibble) : (s.respond st data).inputs = s.inputs := rfl
@[simp] theorem State.respond_presented (s : State) (st : Status) (data : Nibble) : (s.respond st data).presented = s.presented := rfl
@[simp] theorem State.respond_log2NbMax (s : State) (st : Status) (data : Nibble) : (s.respond st data).log2NbMax = s.log2NbMax := rfl

/-! The error (60_exceptions R216). -/

@[simp] theorem State.raiseError_mode (s : State) (st : Status) : (s.raiseError st).mode = s.mode := rfl
@[simp] theorem State.raiseError_tableLen (s : State) (st : Status) : (s.raiseError st).tableLen = s.tableLen := rfl
@[simp] theorem State.raiseError_blockCount (s : State) (st : Status) : (s.raiseError st).blockCount = s.blockCount := rfl
@[simp] theorem State.raiseError_sampleSize (s : State) (st : Status) : (s.raiseError st).sampleSize = s.sampleSize := rfl
@[simp] theorem State.raiseError_addCount (s : State) (st : Status) : (s.raiseError st).addCount = s.addCount := rfl
@[simp] theorem State.raiseError_table (s : State) (st : Status) : (s.raiseError st).table = s.table := rfl
@[simp] theorem State.raiseError_engine (s : State) (st : Status) : (s.raiseError st).engine = .resp := rfl
@[simp] theorem State.raiseError_cmdReg (s : State) (st : Status) : (s.raiseError st).cmdReg = s.cmdReg := rfl
@[simp] theorem State.raiseError_rspReg (s : State) (st : Status) : (s.raiseError st).rspReg = rspWord st 0#4 := rfl
@[simp] theorem State.raiseError_accepted (s : State) (st : Status) : (s.raiseError st).accepted = s.accepted := rfl
@[simp] theorem State.raiseError_responses (s : State) (st : Status) : (s.raiseError st).responses = s.responses := rfl
@[simp] theorem State.raiseError_inputs (s : State) (st : Status) : (s.raiseError st).inputs = s.inputs := rfl
@[simp] theorem State.raiseError_presented (s : State) (st : Status) : (s.raiseError st).presented = s.presented := rfl
@[simp] theorem State.raiseError_log2NbMax (s : State) (st : Status) : (s.raiseError st).log2NbMax = s.log2NbMax := rfl

/-! Acceptance (30_encoding R78). -/

@[simp] theorem State.accept_mode (s : State) (c : CmdWord) : (s.accept c).mode = s.mode := rfl
@[simp] theorem State.accept_tableLen (s : State) (c : CmdWord) : (s.accept c).tableLen = s.tableLen := rfl
@[simp] theorem State.accept_blockCount (s : State) (c : CmdWord) : (s.accept c).blockCount = s.blockCount := rfl
@[simp] theorem State.accept_sampleSize (s : State) (c : CmdWord) : (s.accept c).sampleSize = s.sampleSize := rfl
@[simp] theorem State.accept_addCount (s : State) (c : CmdWord) : (s.accept c).addCount = s.addCount := rfl
@[simp] theorem State.accept_table (s : State) (c : CmdWord) : (s.accept c).table = s.table := rfl
@[simp] theorem State.accept_engine (s : State) (c : CmdWord) : (s.accept c).engine = .busy := rfl
@[simp] theorem State.accept_cmdReg (s : State) (c : CmdWord) : (s.accept c).cmdReg = c := rfl
@[simp] theorem State.accept_rspReg (s : State) (c : CmdWord) : (s.accept c).rspReg = s.rspReg := rfl
@[simp] theorem State.accept_accepted (s : State) (c : CmdWord) : (s.accept c).accepted = s.accepted + 1 := rfl
@[simp] theorem State.accept_responses (s : State) (c : CmdWord) : (s.accept c).responses = s.responses := rfl
@[simp] theorem State.accept_inputs (s : State) (c : CmdWord) : (s.accept c).inputs = s.inputs := rfl
@[simp] theorem State.accept_presented (s : State) (c : CmdWord) : (s.accept c).presented = none := rfl
@[simp] theorem State.accept_log2NbMax (s : State) (c : CmdWord) : (s.accept c).log2NbMax = s.log2NbMax := rfl

/-! Transfer (30_encoding R80). -/

@[simp] theorem State.transfer_mode (s : State) : (s.transfer).mode = s.mode := rfl
@[simp] theorem State.transfer_tableLen (s : State) : (s.transfer).tableLen = s.tableLen := rfl
@[simp] theorem State.transfer_blockCount (s : State) : (s.transfer).blockCount = s.blockCount := rfl
@[simp] theorem State.transfer_sampleSize (s : State) : (s.transfer).sampleSize = s.sampleSize := rfl
@[simp] theorem State.transfer_addCount (s : State) : (s.transfer).addCount = s.addCount := rfl
@[simp] theorem State.transfer_table (s : State) : (s.transfer).table = s.table := rfl
@[simp] theorem State.transfer_engine (s : State) : (s.transfer).engine = .idle := rfl
@[simp] theorem State.transfer_cmdReg (s : State) : (s.transfer).cmdReg = s.cmdReg := rfl
@[simp] theorem State.transfer_rspReg (s : State) : (s.transfer).rspReg = s.rspReg := rfl
@[simp] theorem State.transfer_accepted (s : State) : (s.transfer).accepted = s.accepted := rfl
@[simp] theorem State.transfer_responses (s : State) : (s.transfer).responses = s.responses ++ [s.rspReg] := rfl
@[simp] theorem State.transfer_inputs (s : State) : (s.transfer).inputs = s.inputs := rfl
@[simp] theorem State.transfer_presented (s : State) : (s.transfer).presented = s.presented := rfl
@[simp] theorem State.transfer_log2NbMax (s : State) : (s.transfer).log2NbMax = s.log2NbMax := rfl

/-! A drive used up. -/

@[simp] theorem State.sampled_mode (s : State) : (s.sampled).mode = s.mode := rfl
@[simp] theorem State.sampled_tableLen (s : State) : (s.sampled).tableLen = s.tableLen := rfl
@[simp] theorem State.sampled_blockCount (s : State) : (s.sampled).blockCount = s.blockCount := rfl
@[simp] theorem State.sampled_sampleSize (s : State) : (s.sampled).sampleSize = s.sampleSize := rfl
@[simp] theorem State.sampled_addCount (s : State) : (s.sampled).addCount = s.addCount := rfl
@[simp] theorem State.sampled_table (s : State) : (s.sampled).table = s.table := rfl
@[simp] theorem State.sampled_engine (s : State) : (s.sampled).engine = s.engine := rfl
@[simp] theorem State.sampled_cmdReg (s : State) : (s.sampled).cmdReg = s.cmdReg := rfl
@[simp] theorem State.sampled_rspReg (s : State) : (s.sampled).rspReg = s.rspReg := rfl
@[simp] theorem State.sampled_accepted (s : State) : (s.sampled).accepted = s.accepted := rfl
@[simp] theorem State.sampled_responses (s : State) : (s.sampled).responses = s.responses := rfl
@[simp] theorem State.sampled_inputs (s : State) : (s.sampled).inputs = s.inputs.tail := rfl
@[simp] theorem State.sampled_presented (s : State) : (s.sampled).presented = if s.driven.cmdValid then some s.driven.cmdData else none := rfl
@[simp] theorem State.sampled_log2NbMax (s : State) : (s.sampled).log2NbMax = s.log2NbMax := rfl

/-! Hardware reset (70_reset_and_hazards R246). -/

@[simp] theorem State.hardwareReset_mode (s : State) : (s.hardwareReset).mode = .unconfigured := rfl
@[simp] theorem State.hardwareReset_tableLen (s : State) : (s.hardwareReset).tableLen = 0#64 := rfl
@[simp] theorem State.hardwareReset_blockCount (s : State) : (s.hardwareReset).blockCount = 0#64 := rfl
@[simp] theorem State.hardwareReset_sampleSize (s : State) : (s.hardwareReset).sampleSize = 0#64 := rfl
@[simp] theorem State.hardwareReset_addCount (s : State) : (s.hardwareReset).addCount = 0#64 := rfl
@[simp] theorem State.hardwareReset_table (s : State) : (s.hardwareReset).table = Memory.unspecified (s.table.draw + 1) := rfl
@[simp] theorem State.hardwareReset_engine (s : State) : (s.hardwareReset).engine = .idle := rfl
@[simp] theorem State.hardwareReset_cmdReg (s : State) : (s.hardwareReset).cmdReg = 0#66 := rfl
@[simp] theorem State.hardwareReset_rspReg (s : State) : (s.hardwareReset).rspReg = 0#6 := rfl
@[simp] theorem State.hardwareReset_accepted (s : State) : (s.hardwareReset).accepted = 0 := rfl
@[simp] theorem State.hardwareReset_responses (s : State) : (s.hardwareReset).responses = [] := rfl
@[simp] theorem State.hardwareReset_inputs (s : State) : (s.hardwareReset).inputs = s.inputs := rfl
@[simp] theorem State.hardwareReset_presented (s : State) : (s.hardwareReset).presented = s.presented := rfl
@[simp] theorem State.hardwareReset_log2NbMax (s : State) : (s.hardwareReset).log2NbMax = s.log2NbMax := rfl

/-! The table and the addition count written (10_state R36). -/

@[simp] theorem State.withCounts_mode (s : State) (m : Memory) (n : Word) : (s.withCounts m n).mode = s.mode := rfl
@[simp] theorem State.withCounts_tableLen (s : State) (m : Memory) (n : Word) : (s.withCounts m n).tableLen = s.tableLen := rfl
@[simp] theorem State.withCounts_blockCount (s : State) (m : Memory) (n : Word) : (s.withCounts m n).blockCount = s.blockCount := rfl
@[simp] theorem State.withCounts_sampleSize (s : State) (m : Memory) (n : Word) : (s.withCounts m n).sampleSize = s.sampleSize := rfl
@[simp] theorem State.withCounts_addCount (s : State) (m : Memory) (n : Word) : (s.withCounts m n).addCount = n := rfl
@[simp] theorem State.withCounts_table (s : State) (m : Memory) (n : Word) : (s.withCounts m n).table = m := rfl
@[simp] theorem State.withCounts_engine (s : State) (m : Memory) (n : Word) : (s.withCounts m n).engine = s.engine := rfl
@[simp] theorem State.withCounts_cmdReg (s : State) (m : Memory) (n : Word) : (s.withCounts m n).cmdReg = s.cmdReg := rfl
@[simp] theorem State.withCounts_rspReg (s : State) (m : Memory) (n : Word) : (s.withCounts m n).rspReg = s.rspReg := rfl
@[simp] theorem State.withCounts_accepted (s : State) (m : Memory) (n : Word) : (s.withCounts m n).accepted = s.accepted := rfl
@[simp] theorem State.withCounts_responses (s : State) (m : Memory) (n : Word) : (s.withCounts m n).responses = s.responses := rfl
@[simp] theorem State.withCounts_inputs (s : State) (m : Memory) (n : Word) : (s.withCounts m n).inputs = s.inputs := rfl
@[simp] theorem State.withCounts_presented (s : State) (m : Memory) (n : Word) : (s.withCounts m n).presented = s.presented := rfl
@[simp] theorem State.withCounts_log2NbMax (s : State) (m : Memory) (n : Word) : (s.withCounts m n).log2NbMax = s.log2NbMax := rfl

/-! A successful INIT (43_commands R165). -/

@[simp] theorem State.configured_mode (s : State) (k : Nat) : (s.configured k).mode = .ready := rfl
@[simp] theorem State.configured_tableLen (s : State) (k : Nat) : (s.configured k).tableLen = BitVec.ofNat 64 (tableLenOf k) := rfl
@[simp] theorem State.configured_blockCount (s : State) (k : Nat) : (s.configured k).blockCount = BitVec.ofNat 64 (blockCountOf k) := rfl
@[simp] theorem State.configured_sampleSize (s : State) (k : Nat) : (s.configured k).sampleSize = BitVec.ofNat 64 (sampleSizeOf k) := rfl
@[simp] theorem State.configured_addCount (s : State) (k : Nat) : (s.configured k).addCount = 0#64 := rfl
@[simp] theorem State.configured_table (s : State) (k : Nat) : (s.configured k).table = clearAll s.table (wordsPerBlock * blockCountOf k) := rfl
@[simp] theorem State.configured_engine (s : State) (k : Nat) : (s.configured k).engine = s.engine := rfl
@[simp] theorem State.configured_cmdReg (s : State) (k : Nat) : (s.configured k).cmdReg = s.cmdReg := rfl
@[simp] theorem State.configured_rspReg (s : State) (k : Nat) : (s.configured k).rspReg = s.rspReg := rfl
@[simp] theorem State.configured_accepted (s : State) (k : Nat) : (s.configured k).accepted = s.accepted := rfl
@[simp] theorem State.configured_responses (s : State) (k : Nat) : (s.configured k).responses = s.responses := rfl
@[simp] theorem State.configured_inputs (s : State) (k : Nat) : (s.configured k).inputs = s.inputs := rfl
@[simp] theorem State.configured_presented (s : State) (k : Nat) : (s.configured k).presented = s.presented := rfl
@[simp] theorem State.configured_log2NbMax (s : State) (k : Nat) : (s.configured k).log2NbMax = s.log2NbMax := rfl

/-! RECORD's updates (43_commands R170). -/

@[simp] theorem State.counted_mode (s : State) (h : Word) : (s.counted h).mode = s.mode := rfl
@[simp] theorem State.counted_tableLen (s : State) (h : Word) : (s.counted h).tableLen = s.tableLen := rfl
@[simp] theorem State.counted_blockCount (s : State) (h : Word) : (s.counted h).blockCount = s.blockCount := rfl
@[simp] theorem State.counted_sampleSize (s : State) (h : Word) : (s.counted h).sampleSize = s.sampleSize := rfl
@[simp] theorem State.counted_addCount (s : State) (h : Word) : (s.counted h).addCount = if (bumpAll s.table (s.positions h)).2 then s.addCount + 1#64 else s.addCount := rfl
@[simp] theorem State.counted_table (s : State) (h : Word) : (s.counted h).table = (bumpAll s.table (s.positions h)).1 := rfl
@[simp] theorem State.counted_engine (s : State) (h : Word) : (s.counted h).engine = s.engine := rfl
@[simp] theorem State.counted_cmdReg (s : State) (h : Word) : (s.counted h).cmdReg = s.cmdReg := rfl
@[simp] theorem State.counted_rspReg (s : State) (h : Word) : (s.counted h).rspReg = s.rspReg := rfl
@[simp] theorem State.counted_accepted (s : State) (h : Word) : (s.counted h).accepted = s.accepted := rfl
@[simp] theorem State.counted_responses (s : State) (h : Word) : (s.counted h).responses = s.responses := rfl
@[simp] theorem State.counted_inputs (s : State) (h : Word) : (s.counted h).inputs = s.inputs := rfl
@[simp] theorem State.counted_presented (s : State) (h : Word) : (s.counted h).presented = s.presented := rfl
@[simp] theorem State.counted_log2NbMax (s : State) (h : Word) : (s.counted h).log2NbMax = s.log2NbMax := rfl

/-! The aging pass (44_aging R197). -/

@[simp] theorem State.agingPass_mode (s : State) : (s.agingPass).mode = s.mode := rfl
@[simp] theorem State.agingPass_tableLen (s : State) : (s.agingPass).tableLen = s.tableLen := rfl
@[simp] theorem State.agingPass_blockCount (s : State) : (s.agingPass).blockCount = s.blockCount := rfl
@[simp] theorem State.agingPass_sampleSize (s : State) : (s.agingPass).sampleSize = s.sampleSize := rfl
@[simp] theorem State.agingPass_addCount (s : State) : (s.agingPass).addCount = BitVec.ofNat 64 (ageCount s.addCount.toNat (resetAll s.table s.nwInUse).2) := rfl
@[simp] theorem State.agingPass_table (s : State) : (s.agingPass).table = (resetAll s.table s.nwInUse).1 := rfl
@[simp] theorem State.agingPass_engine (s : State) : (s.agingPass).engine = s.engine := rfl
@[simp] theorem State.agingPass_cmdReg (s : State) : (s.agingPass).cmdReg = s.cmdReg := rfl
@[simp] theorem State.agingPass_rspReg (s : State) : (s.agingPass).rspReg = s.rspReg := rfl
@[simp] theorem State.agingPass_accepted (s : State) : (s.agingPass).accepted = s.accepted := rfl
@[simp] theorem State.agingPass_responses (s : State) : (s.agingPass).responses = s.responses := rfl
@[simp] theorem State.agingPass_inputs (s : State) : (s.agingPass).inputs = s.inputs := rfl
@[simp] theorem State.agingPass_presented (s : State) : (s.agingPass).presented = s.presented := rfl
@[simp] theorem State.agingPass_log2NbMax (s : State) : (s.agingPass).log2NbMax = s.log2NbMax := rfl

end Sys2Proof.Machine
end

