-- ==== Sys2Proof/Laws/Step.lean ====
section
/-! SUPPORT. What each meaning and the step can do, said once (43_commands R162; 30_encoding R77 to R82). -/

namespace Sys2Proof.Machine

/-- INIT answers ERR_STATE, ERR_CAPACITY, or configures the sketch; it never stops (43_commands R165). -/
theorem execInit_cases (cap : Int) (s : State) :
    (s.mode = .ready ∧ execInit cap s = .next (s.raiseError .errState)) ∨
    (s.mode = .unconfigured ∧ s.capLegal cap = false ∧ execInit cap s = .next (s.raiseError .errCapacity)) ∨
    (s.mode = .unconfigured ∧ s.capLegal cap = true ∧
      execInit cap s = .next ((s.configured (log2Tl cap.toNat)).respond .ok 0#4)) := by
  unfold execInit
  cases h : s.mode
  · cases hc : s.capLegal cap <;> simp
  · simp

/-- RECORD answers ERR_STATE, stops at a word that does not exist, or counts with or without an aging pass (43_commands
R170). -/
theorem execRecord_cases (h : Word) (s : State) :
    (s.mode = .unconfigured ∧ execRecord h s = .next (s.raiseError .errState)) ∨
    (s.mode = .ready ∧ (s.positionsExist h = false ∨ s.scanExists = false) ∧
      execRecord h s = .fault .noSuchTableWord) ∨
    (s.mode = .ready ∧ s.positionsExist h = true ∧ s.ages h = false ∧
      execRecord h s = .next ((s.counted h).respond .ok 0#4)) ∨
    (s.mode = .ready ∧ s.positionsExist h = true ∧ s.ages h = true ∧ s.scanExists = true ∧
      execRecord h s = .next ((s.counted h).agingPass.respond .ok 0#4)) := by
  unfold execRecord
  cases hm : s.mode
  · simp
  · cases hp : s.positionsExist h <;> cases ha : s.ages h <;> cases hs : s.scanExists <;> simp

/-- ESTIMATE answers ERR_STATE, stops at a word that does not exist, or answers the minimum (43_commands R175). -/
theorem execEstimate_cases (h : Word) (s : State) :
    (s.mode = .unconfigured ∧ execEstimate h s = .next (s.raiseError .errState)) ∨
    (s.mode = .ready ∧ s.positionsExist h = false ∧ execEstimate h s = .fault .noSuchTableWord) ∨
    (s.mode = .ready ∧ s.positionsExist h = true ∧ execEstimate h s = .next (s.respond .ok (s.estimateOf h))) := by
  unfold execEstimate
  cases hm : s.mode
  · simp
  · cases hp : s.positionsExist h <;> simp

/-- No meaning refuses: every row of the opcode table has its effect. -/
theorem exec_ne_refused (i : Instr) (s : State) (r : Refusal) : exec i s ≠ .refused r := by
  cases i with
  | init cap => rcases execInit_cases cap s with h | h | h <;> simp [exec, h]
  | record h => rcases execRecord_cases h s with h | h | h | h <;> simp [exec, h]
  | estimate h => rcases execEstimate_cases h s with h | h | h <;> simp [exec, h]
  | rsvd3 arg => simp [exec, execRsvd3]

/-- Every command leaves its surroundings alone and ends in RESP (10_state R33, 30_encoding R82). -/
theorem exec_surroundings {i : Instr} {s t : State} (h : exec i s = .next t) :
    s.SameSurroundings t ∧ t.engine = .resp := by
  cases i with
  | init cap =>
    rcases execInit_cases cap s with ⟨_, e⟩ | ⟨_, _, e⟩ | ⟨_, _, e⟩ <;> rw [exec, e] at h <;> cases h <;>
      refine ⟨?_, ?_⟩ <;> try constructor
    all_goals simp
  | record x =>
    rcases execRecord_cases x s with ⟨_, e⟩ | ⟨_, _, e⟩ | ⟨_, _, _, e⟩ | ⟨_, _, _, _, e⟩ <;> rw [exec, e] at h <;>
      cases h <;> refine ⟨?_, ?_⟩ <;> try constructor
    all_goals simp
  | estimate x =>
    rcases execEstimate_cases x s with ⟨_, e⟩ | ⟨_, _, e⟩ | ⟨_, _, e⟩ <;> rw [exec, e] at h <;> cases h <;>
      refine ⟨?_, ?_⟩ <;> try constructor
    all_goals simp
  | rsvd3 arg =>
    rw [exec, execRsvd3] at h
    cases h
    refine ⟨?_, ?_⟩ <;> try constructor
    all_goals simp

/-- A step is a hardware reset, the refusal of a host that breaks the handshake, the execution of the command in BUSY, or
an event at the ports. -/
theorem step_cases (s : State) :
    (s.driven.rst = true ∧ step s = .next s.resetEdge) ∨
    (s.driven.rst = false ∧ s.handshakeBroken = true ∧ step s = .refused .handshakeBroken) ∨
    (s.driven.rst = false ∧ s.handshakeBroken = false ∧ s.engine = .busy ∧ step s = exec s.fetched s.sampled) ∨
    (s.driven.rst = false ∧ s.handshakeBroken = false ∧ s.engine ≠ .busy ∧ step s = .next s.portEdge) := by
  unfold step
  cases hr : s.driven.rst
  · cases hb : s.handshakeBroken
    · cases he : s.engine <;> simp
    · simp
  · simp

/-- An event at the ports is an acceptance in IDLE, a transfer in RESP, or waiting for the host (30_encoding R78, R80). -/
theorem portEdge_cases (s : State) (hr : s.driven.rst = false) (hb : s.engine ≠ .busy) :
    (s.engine = .idle ∧ s.driven.cmdValid = true ∧ s.portEdge = s.sampled.accept s.driven.cmdData) ∨
    (s.engine = .idle ∧ s.driven.cmdValid = false ∧ s.portEdge = s.sampled) ∨
    (s.engine = .resp ∧ s.driven.rspReady = true ∧ s.portEdge = s.sampled.transfer) ∨
    (s.engine = .resp ∧ s.driven.rspReady = false ∧ s.portEdge = s.sampled) := by
  unfold State.portEdge State.accepts State.transfers State.cmdReady State.rspValid
  cases he : s.engine
  · cases hv : s.driven.cmdValid <;> simp [hr]
  · exact absurd he hb
  · cases hv : s.driven.rspReady <;> simp [hr]

/-- Hardware reset leaves the table at a new draw of its unspecified contents (70_reset_and_hazards R246, R247). -/
theorem resetEdge_table (s : State) : s.resetEdge.table = Memory.unspecified (s.table.draw + 1) := rfl

theorem reset_wf : State.reset.table.wf := Memory.unspecified_wf 0

end Sys2Proof.Machine
end

