-- ==== Sys2Proof/Tests/Slice0.lean ====
section
/-! SUPPORT. The model's own tests. Expected results are the spec's: the encodings of 30_encoding, the vectors of 95_test_vectors
and the worked examples of the rules. The last part shows, for each statement with hypotheses, a state and operands that
meet them together. -/

namespace Sys2Proof.Tests

open Sys2Proof.Machine

/-! ## Small states -/

/-- A configured block with 2^`k` as table length, `n` effective increments counted, and the given words in its table. -/
def ready (k n : Nat) (words : List Word) : State :=
  { State.reset with
    mode := .ready
    tableLen := BitVec.ofNat 64 (tableLenOf k)
    blockCount := BitVec.ofNat 64 (blockCountOf k)
    sampleSize := BitVec.ofNat 64 (sampleSizeOf k)
    addCount := BitVec.ofNat 64 n
    table := (words.zipIdx).foldl (fun m p => m.writeWord p.2 p.1) (Memory.unspecified 0) }

/-- The state after INIT 32 and `n` effective increments, all counters 0. -/
def fresh (n : Nat) : State := ready 5 n (List.replicate 8 0#64)

/-- All counters at 15. -/
def full (n : Nat) : State := ready 5 n (List.replicate 8 0xFFFFFFFFFFFFFFFF#64)

/-- The table of program P3 before its command 326 (95_test_vectors section 3). -/
def beforeAging : State := ready 5 319
  [0x98CAB4EDAFC85EB9#64, 0x9B8BB699A83D9BFA#64, 0xBBB6D6BFBCAC82A4#64, 0xC9D77FB7A9ABEF84#64,
    0x78E8FB7CACB8A999#64, 0xA98B969FEC9398AC#64, 0xC967A5AFB5A7CB89#64, 0x68779EAFAADBCCEB#64]

/-- The host drives these values at the next step. -/
def drives (s : State) (rst cmdValid : Bool) (cmdData : CmdWord) (rspReady : Bool) : State :=
  { s with inputs := [{ rst := rst, cmdValid := cmdValid, cmdData := cmdData, rspReady := rspReady }] }

/-- The block holds a response of an accepted command. -/
def answering (s : State) : State := { s with engine := .resp, rspReg := 0x05#6, accepted := 1 }

/-- Some property of the next state, false of a stop. -/
def after (o : Host.Outcome State Fault Refusal) (p : State → Bool) : Bool :=
  match o with
  | .next t => p t
  | .fault _ => false
  | .refused _ => false

theorem next_of_after {o : Host.Outcome State Fault Refusal} {p : State → Bool} (h : after o p = true) :
    ∃ t, o = .next t ∧ p t = true := by
  cases o with
  | next t => exact ⟨t, rfl, h⟩
  | fault f => cases h
  | refused r => cases h

theorem exists_next {o : Host.Outcome State Fault Refusal} (h : after o (fun _ => true) = true) : ∃ t, o = .next t :=
  (next_of_after h).imp fun _ h => h.1

/-! ## Well-formed terms -/

theorem test_wellFormed_refuses_capacity_above : (Instr.init (2 ^ 63)).wellFormed = false := by decide
theorem test_wellFormed_refuses_capacity_below : (Instr.init (-2 ^ 63 - 1)).wellFormed = false := by decide
theorem test_wellFormed_capacity_bounds :
    (Instr.init (2 ^ 63 - 1)).wellFormed = true ∧ (Instr.init (-2 ^ 63)).wellFormed = true := by decide

/-! ## Words written out bit by bit (30_encoding R84 to R87, R97) -/

theorem test_decode_init :
    decode 0b000000000000000000000000000000000000000000000000000000001000000000#66 = .init 512 := by decide
theorem test_decode_init_minus_one :
    decode 0b001111111111111111111111111111111111111111111111111111111111111111#66 = .init (-1) := by decide
theorem test_decode_record :
    decode 0b010000000000000000000000000110000101101100011100000110100001100001#66 = .record 0x616C706861#64 := by decide
theorem test_decode_estimate :
    decode 0b100000000000000000000000000110000101101100011100000110100001100001#66 = .estimate 0x616C706861#64 := by
  decide
theorem test_decode_rsvd3 :
    decode 0b110000000000000000000000000000000000000000000000000001001000110100#66 = .rsvd3 0x1234#64 := by decide

/-- The table's words (30_encoding R91), and a number that is no command word. -/
theorem test_decodeTableWord :
    decodeTableWord 72 0x00000000000000000 = some (.init 0) ∧ decodeTableWord 72 0x10000000000000000 = some (.record 0#64) ∧
    decodeTableWord 72 0x20000000000000000 = some (.estimate 0#64) ∧
    decodeTableWord 72 0x30000000000000000 = some (.rsvd3 0#64) ∧ decodeTableWord 72 (2 ^ 66) = none := by decide

/-- Aliases and pseudo-instructions (30_encoding R95, R96). -/
theorem test_notation :
    opOfName "recordAccess" = some 0b01#2 ∧ opOfName "frequency" = some 0b10#2 ∧ opOfName "construct" = some 0b00#2 ∧
    opOfName "NOP" = none ∧ recTimes 7#64 2 = [.record 7#64, .record 7#64] ∧
    recRange 1 2 = [.record 1#64, .record 2#64] ∧ recRange 2 1 = [] := by decide

/-! ## Mixer, positions, counters (95_test_vectors sections 2.1 to 2.3) -/

theorem test_mix_alpha :
    fmix64 0x616C706861#64 = 0xEDBFB1C38952FAD8#64 ∧ mix 0x616C706861#64 0 = 0x984B3E7586A4B09D#64 ∧
    mix 0x616C706861#64 1 = 0x27AD25C0460BFAC8#64 ∧ mix 0x616C706861#64 2 = 0x98A1782E78701086#64 ∧
    mix 0x616C706861#64 3 = 0x47BC7BC5A645B2FD#64 := by decide

theorem test_pos_alpha :
    pos 0x616C706861#64 16#64 0 = { word := 41, nibble := 13 } ∧ pos 0x616C706861#64 16#64 1 = { word := 42, nibble := 8 } ∧
    pos 0x616C706861#64 16#64 2 = { word := 44, nibble := 6 } ∧
    pos 0x616C706861#64 16#64 3 = { word := 47, nibble := 13 } := by decide

theorem test_pos_one_at_the_largest_size :
    pos 1#64 32768#64 0 = { word := 99609, nibble := 7 } ∧ pos 1#64 32768#64 3 = { word := 99614, nibble := 7 } := by decide

theorem test_nibGet : nibGet 0x0123456789ABCDEF#64 3 = 0xC#4 ∧ nibGet 0x0123456789ABCDEF#64 15 = 0#4 := by decide

theorem test_nibInc_top :
    nibInc 0xEFFFFFFFFFFFFFFF#64 15 = (0xFFFFFFFFFFFFFFFF#64, true) ∧
    nibInc 0xFFFFFFFFFFFFFFFF#64 7 = (0xFFFFFFFFFFFFFFFF#64, false) := by decide

theorem test_halveWord :
    halveWord 0x98CAB4EDAFC85EB9#64 = 0x4465527657642754#64 ∧ halveWord 0x1000000000000000#64 = 0#64 := by decide

theorem test_oddCount : oddCount 0x98CAB4EDAFC85EB9#64 = 7 ∧ oddCount 0x2222222222222222#64 = 0 := by decide

/-- 95_test_vectors section 2.5. -/
theorem test_ageCount :
    ageCount 320 67 = 143 ∧ ageCount 320 1 = 160 ∧ ageCount 320 2 = 159 ∧ ageCount 320 128 = 128 ∧
    ageCount 5120 1068 = 2293 ∧ ageCount 1 128 = 0 := by decide

/-- 95_test_vectors section 2.4. -/
theorem test_log2Tl :
    log2Tl 1 = 5 ∧ log2Tl 32 = 5 ∧ log2Tl 33 = 6 ∧ log2Tl 512 = 9 ∧ log2Tl 513 = 10 ∧ log2Tl 1048576 = 20 := by decide

/-! ## One step of each command -/

/-- INIT 33: the sizes of 95_test_vectors section 2.4, its word placed and run as the first command after reset. -/
theorem test_init :
    after (step (State.reset.withFetchWord 72 0x00000000000000021)) (fun t =>
      decide (t.mode = .ready ∧ t.tableLen = 64#64 ∧ t.blockCount = 2#64 ∧ t.sampleSize = 640#64 ∧ t.addCount = 0#64 ∧
        t.table.readWord 15 = 0#64 ∧ t.table.cells.length = 128 ∧ t.rspPort = some 0x00#6)) = true := by decide +kernel

/-- INIT at and above CAP_MAX, and in READY mode (95_test_vectors section 2.6). -/
theorem test_init_errors :
    after (step (State.reset.withFetchWord 72 0x00000000000100001)) (fun t => decide (t.rspPort = some 0x10#6)) = true ∧
    after (step (State.reset.withFetchWord 72 0x08000000000000000)) (fun t => decide (t.rspPort = some 0x10#6)) = true ∧
    State.reset.capLegal 1048576 = true ∧
    after (step ((fresh 0).withFetchWord 72 0)) (fun t => decide (t.rspPort = some 0x20#6)) = true := by decide

/-- REC alpha on the fresh table of INIT 100 (program P4, command 11). -/
theorem test_record :
    after (exec (.record 0x616C706861#64) (ready 7 0 (List.replicate 32 0#64))) (fun t =>
      decide (t.addCount = 1#64 ∧ t.table.readWord 9 = 0x0010000000000000#64 ∧
        t.table.readWord 10 = 0x0000000100000000#64 ∧ t.table.readWord 12 = 0x0000000001000000#64 ∧
        t.table.readWord 15 = 0x0010000000000000#64 ∧ t.table.readWord 14 = 0#64 ∧ t.rspReg = 0x00#6)) = true := by decide +kernel

/-- REC 320, the aging RECORD of program P3 (command 326). -/
theorem test_record_aging :
    after (exec (.record 320#64) beforeAging) (fun t =>
      decide (t.addCount = 143#64 ∧ t.table.readWord 0 = 0x4465527657642754#64 ∧
        t.table.readWord 1 = 0x4545534554164575#64 ∧ t.table.readWord 3 = 0x6463375354557742#64 ∧
        t.table.readWord 7 = 0x3433475755656675#64 ∧ t.rspReg = 0x00#6)) = true := by decide +kernel

/-- EST 1 and EST 3 of program P3 (commands 321 and 323). -/
theorem test_estimate :
    after (exec (.estimate 1#64) beforeAging) (fun t => decide (t.rspReg = 0x0A#6)) = true ∧
    after (exec (.estimate 3#64) beforeAging) (fun t => decide (t.rspReg = 0x09#6)) = true := by decide

/-- RECORD and ESTIMATE before INIT (program P4, commands 1 and 2). -/
theorem test_before_init :
    after (step (State.reset.withFetchWord 72 0x2000000616C706861)) (fun t => decide (t.rspPort = some 0x20#6)) = true ∧
    after (step (State.reset.withFetchWord 72 0x1000000616C706861)) (fun t => decide (t.rspPort = some 0x20#6)) = true := by
  decide

/-- RSVD3 in either mode (95_test_vectors section 2.6). -/
theorem test_rsvd3 :
    after (step (State.reset.withFetchWord 72 0x30000000000001234)) (fun t => decide (t.rspPort = some 0x30#6)) = true ∧
    after (step ((fresh 0).withFetchWord 72 0x3FFFFFFFFFFFFFFFF)) (fun t => decide (t.rspPort = some 0x30#6)) = true := by
  decide

/-- A command presented to an idle block is accepted, executes, and its response is transferred (30_encoding R78 to R82). -/
theorem test_handshake :
    after (step (drives State.reset false true 0x30000000000000000#66 false)) (fun s =>
      decide (s.engine = .busy ∧ s.accepted = 1) && after (step s) (fun t =>
        decide (t.rspPort = some 0x30#6) && after (step (drives t false false 0#66 true)) (fun u =>
          decide (u.engine = .idle ∧ u.responses = [0x30#6])))) = true := by decide

/-- Hardware reset withdraws a response (70_reset_and_hazards R248). -/
theorem test_hardware_reset :
    after (step (drives (answering (fresh 3)) true false 0#66 true)) (fun t =>
      decide (t.mode = .unconfigured ∧ t.addCount = 0#64 ∧ t.responses = [] ∧ t.accepted = 0 ∧ t.table.cells = [])) = true := by
  decide

/-! ## States and operands that meet the hypotheses of the statements -/

theorem sizedBy (k n : Nat) (words : List Word) (h5 : 5 ≤ k) (hk : k ≤ 20) : (ready k n words).SizedBy k := by
  have h1 : 2 ^ k ≤ 2 ^ 20 := Nat.pow_le_pow_right (by decide) hk
  have h2 : 2 ^ (k - 5) ≤ 2 ^ 20 := Nat.pow_le_pow_right (by decide) (by omega)
  refine ⟨h5, hk, ?_, ?_, ?_⟩
  · simp only [ready, tableLenOf, BitVec.toNat_ofNat]; exact Nat.mod_eq_of_lt (by omega)
  · simp only [ready, blockCountOf, log2TlMin, BitVec.toNat_ofNat]; exact Nat.mod_eq_of_lt (by omega)
  · simp only [ready, sampleSizeOf, sampleMult, BitVec.toNat_ofNat]; exact Nat.mod_eq_of_lt (by omega)

/-- A small READY state meets the invariant when its count is below 320 and it has written the eight words in use. -/
theorem inv_of (n : Nat) (words : List Word) (hn : (ready 5 n words).addCount.toNat < 320)
    (hw : (ready 5 n words).table.addresses = List.range 64) : (ready 5 n words).Inv :=
  ⟨fun h => (by cases h), fun _ => ⟨5, sizedBy 5 n words (by decide) (by decide)⟩, fun _ => hn, hw, rfl⟩

/-- The invariant, in READY mode at both ends of the count's range and with all counters at 15 (10_state R34). -/
theorem test_inv_fresh : (fresh 0).Inv ∧ (fresh 0).mode = .ready := ⟨inv_of _ _ (by decide) (by decide), rfl⟩
theorem test_inv_last : (fresh 319).Inv ∧ (fresh 319).mode = .ready := ⟨inv_of _ _ (by decide) (by decide), rfl⟩
theorem test_inv_full : (full 319).Inv ∧ (full 319).mode = .ready := ⟨inv_of _ _ (by decide) (by decide), rfl⟩
theorem test_inv_beforeAging : beforeAging.Inv ∧ beforeAging.mode = .ready := ⟨inv_of _ _ (by decide) (by decide), rfl⟩

/-- DecodeOfEncodeIsTheInstruction. -/
theorem test_witness_wellFormed : ∀ i ∈ [Instr.init (-2 ^ 63), .init (2 ^ 63 - 1), .record 0xFFFFFFFFFFFFFFFF#64,
    .estimate 0#64, .rsvd3 1#64], i.wellFormed = true := by decide

/-- BusyStepRunsTheDecodedCommand. -/
theorem test_witness_busy : let s := (fresh 0).placeCommand 0x20000000000000001#66
    s.driven.rst = false ∧ s.handshakeBroken = false ∧ s.engine = .busy ∧ decode s.cmdReg = .estimate 1#64 := by decide

/-- BusyCommandReachesItsResponse. -/
theorem test_witness_busy_inv : ((fresh 0).placeCommand 0x20000000000000001#66).Inv := by
  obtain ⟨h, -⟩ := test_inv_fresh
  exact ⟨h.1, fun e => (h.2 e).imp fun _ h => ⟨h.1, h.2, h.3, h.4, h.5⟩, h.3, h.4, rfl⟩

/-- IdleStepAcceptsThePresentedCommand, of a command presented at this step and of one standing since the last. -/
theorem test_witness_idle : ∀ s ∈ [drives State.reset false true 5#66 false,
      { drives State.reset false true 5#66 true with presented := some 5#66 }],
    s.driven.rst = false ∧ s.handshakeBroken = false ∧ s.engine = .idle ∧ s.driven.cmdValid = true := by decide

/-- ResponseHoldsUntilTransferred, both of its cases. -/
theorem test_witness_resp : ∀ b ∈ [false, true], let s := drives (answering (fresh 0)) false false 0#66 b
    s.driven.rst = false ∧ s.handshakeBroken = false ∧ s.engine = .resp ∧ s.driven.rspReady = b := by decide

/-- HandshakeOutputsFollowTheEngine and HardwareResetFromEveryState. -/
theorem test_witness_rst : ∀ s ∈ [fresh 0, answering (fresh 0), (fresh 0).placeCommand 7#66],
    (drives s true false 0#66 false).driven.rst = true ∧ (drives s false false 0#66 false).driven.rst = false := by decide

/-- IdleWithoutCommandIsQuiescent. -/
theorem test_witness_quiet :
    State.reset.driven.rst = false ∧ State.reset.presented = none ∧ State.reset.engine = .idle ∧
    State.reset.driven.cmdValid = false := by decide

/-- BrokenHandshakeIsRefused, withdrawn and changed. -/
theorem test_witness_broken : let s : State := { State.reset with presented := some 5#66 }
    let r := drives s false true 6#66 false
    (s.driven.rst = false ∧ s.presented = some 5#66 ∧ s.driven.cmdValid = false) ∧
    (r.driven.rst = false ∧ r.presented = some 5#66 ∧ r.driven.cmdData ≠ 5#66) := by decide

/-- StepKeepsTheInvariant, NoStepFaultsUnderTheInvariant, UnspecifiedContentsNeverMatter, StepKeepsTheTableCanonical,
ReadyConfigurationIsFixed, BuildParameterNeverChanges, WordsAboveThoseInUseAreNeverWritten (at address 64, the first). -/
theorem test_witness_ready_step : let s := (fresh 0).placeCommand 0x10000000000000001#66
    s.Inv ∧ s.table.wf ∧ s.mode = .ready ∧ s.driven.rst = false ∧ 8 * (8 * s.blockCount.toNat) ≤ 64 ∧
      ∃ t, step s = .next t := by
  refine ⟨?_, Memory.wf_of_addresses (n := 64) (by decide +kernel), rfl, rfl, by decide +kernel, exists_next (by decide +kernel)⟩
  obtain ⟨h, -⟩ := test_inv_fresh
  exact ⟨h.1, fun e => (h.2 e).imp fun _ h => ⟨h.1, h.2, h.3, h.4, h.5⟩, h.3, h.4, rfl⟩

/-- UnspecifiedContentsNeverMatter, the refusal. -/
theorem test_witness_refused : step { fresh 0 with presented := some 5#66 } = .refused .handshakeBroken := by rfl

/-- OnlyRecordAndInitWriteCounts: a RECORD changes the count, an INIT the table. -/
theorem test_witness_counts :
    (∃ t, step ((fresh 0).placeCommand 0x10000000000000001#66) = .next t ∧
      decide (t.addCount ≠ (fresh 0).addCount) = true) ∧
    (∃ t, step (State.reset.placeCommand 0x00000000000000020#66) = .next t ∧
      decide (t.table ≠ State.reset.table) = true) :=
  ⟨next_of_after (by decide +kernel), next_of_after (by decide +kernel)⟩

/-- ErrorResponseChangesNoState, StatusFollowsTheCauseTable, InitFrame: each status other than OK. -/
theorem test_witness_errors :
    (∃ t, exec (.init 0) State.reset = .next t ∧ decide (rspStatus t.rspReg = 0b01#2) = true) ∧
    (∃ t, exec (.init 0) (fresh 0) = .next t ∧ decide (rspStatus t.rspReg = 0b10#2) = true) ∧
    (∃ t, exec (.record 0#64) State.reset = .next t ∧ decide (rspStatus t.rspReg = 0b10#2) = true) ∧
    (∃ t, exec (.rsvd3 0#64) (fresh 0) = .next t ∧ decide (rspStatus t.rspReg = 0b11#2) = true) :=
  ⟨next_of_after (by decide), next_of_after (by decide), next_of_after (by decide), next_of_after (by decide)⟩

/-- DataComesOnlyFromEstimate. -/
theorem test_witness_data : ∃ t, exec (.estimate 1#64) beforeAging = .next t ∧ decide (rspData t.rspReg ≠ 0#4) = true :=
  next_of_after (by decide)

/-- EachStepIsOnePhaseOfOneCommand: a step in each of the engine's conditions. -/
theorem test_witness_phases :
    (∃ t, step State.reset = .next t ∧ decide (t.engine = .idle) = true) ∧
    (∃ t, step (drives State.reset false true 5#66 false) = .next t ∧ decide (t.engine = .busy) = true) ∧
    (∃ t, step (State.reset.placeCommand 0#66) = .next t ∧ decide (t.engine = .resp) = true) ∧
    (∃ t, step (drives (answering (fresh 0)) false false 0#66 true) = .next t ∧ decide (t.engine = .idle) = true) :=
  ⟨next_of_after (by decide), next_of_after (by decide), next_of_after (by decide), next_of_after (by decide)⟩

/-- InitMeaning, IllegalCapacityFailsConstruction, WrongModeAnswersErrState, ErrorPriorityExamples: the two modes, and the
capacities at the ends of the legal range and just outside. -/
theorem test_witness_capacities : let p := State.reset.log2NbMax
    (fresh 0).mode = .ready ∧ State.reset.mode = .unconfigured ∧
    ((0 : Int) < 1 ∧ ¬ (32 * 2 ^ p.val : Int) < 0) ∧ (32 * 2 ^ p.val : Int) < 1048577 ∧
    ((1 : Int) ≤ 1 ∧ (1 : Int) ≤ 32 * 2 ^ p.val) ∧ ((1 : Int) ≤ 1048576 ∧ (1048576 : Int) ≤ 32 * 2 ^ p.val) := by decide

/-- InitFrame, a successful INIT; address 64 is the first outside the words it brings into use. -/
theorem test_witness_init_frame : (∃ t, exec (.init 32) State.reset = .next t) ∧
    8 * (8 * blockCountOf (log2Tl (32 : Int).toNat)) ≤ 64 := ⟨exists_next (by decide), by decide⟩

/-- RecordWithoutAging, RecordRaisesItsOwnEstimate, EstimatesNeverFallWithinAnEpoch: far from the threshold, one before it, and
at the last count with every counter at 15. -/
theorem test_witness_without_aging :
    ¬ ((fresh 0).effective 1#64 ∧ (fresh 0).addCount.toNat + 1 = (fresh 0).sampleSize.toNat) ∧
    ¬ ((fresh 318).effective 1#64 ∧ (fresh 318).addCount.toNat + 1 = (fresh 318).sampleSize.toNat) ∧
    ¬ ((full 319).effective 1#64 ∧ (full 319).addCount.toNat + 1 = (full 319).sampleSize.toNat) := by
  refine ⟨fun h => absurd h.2 (by decide), fun h => absurd h.2 (by decide), fun h => absurd h.1 (by decide)⟩

/-- RecordWithAging, AgingLeavesTheCountBetweenTwoFifthsAndHalf, AgingPassHalvesEveryEstimate, NoCounterIsSaturatedAfterAging
(with the last offset of the one block in use). -/
theorem test_witness_aging :
    (fresh 319).effective 1#64 ∧ (fresh 319).addCount.toNat + 1 = (fresh 319).sampleSize.toNat ∧
    (∃ t, exec (.record 1#64) (fresh 319) = .next t) ∧ 0 < (fresh 319).blockCount.toNat ∧ 127 < 128 :=
  ⟨by decide +kernel, by decide +kernel, exists_next (by decide +kernel), by decide +kernel, by decide +kernel⟩

/-- SaturatedRecordChangesNothing. -/
theorem test_witness_saturated : ∀ d : Fin 4, (full 319).table.at ((full 319).positions 1#64 d) = 15#4 := by decide

/-- RecordFrame: without a pass, with one, and in UNCONFIGURED mode; byte 64 stands in none of the item's words. -/
theorem test_witness_record_frame :
    ((∃ t, exec (.record 1#64) (fresh 0) = .next t) ∧ (fresh 0).ages 1#64 = false) ∧
    ((∃ t, exec (.record 1#64) (fresh 319) = .next t) ∧ 8 * (fresh 319).nwInUse ≤ 64 ∧
      ∀ d, 64 / 8 ≠ ((fresh 319).positions 1#64 d).word) ∧
    (∃ t, exec (.record 1#64) State.reset = .next t) :=
  ⟨⟨exists_next (by decide +kernel), by decide +kernel⟩, ⟨exists_next (by decide +kernel), by decide +kernel, by decide +kernel⟩, exists_next (by decide +kernel)⟩

/-- EstimateAndReservedFrame. -/
theorem test_witness_frames : (∃ t, exec (.estimate 1#64) (fresh 0) = .next t) ∧
    (∃ t, exec (.rsvd3 1#64) State.reset = .next t) := ⟨exists_next (by decide), exists_next (by decide)⟩

/-- PositionFormula, PositionsAreInBoundsAndSeparate: the least and the greatest block count. -/
theorem test_witness_blockCount : (1#64 : Word).toNat = 2 ^ 0 ∧ (0x100000000#64 : Word).toNat = 2 ^ 32 ∧
    32 ≤ (32 : Config.Log2NbMax).val := by decide

/-- OnlyTheNamedMixBitsReachTheTable: two different items with equal named bits, at one block. -/
theorem test_witness_collision : (0#64 : Word) ≠ 0x25CE6#64 ∧
    (mix 0#64 0).toNat / 2 ^ 32 % 2 ^ 0 = (mix 0x25CE6#64 0).toNat / 2 ^ 32 % 2 ^ 0 ∧
    ∀ d : Fin 4, (mix 0#64 d).toNat % 32 = (mix 0x25CE6#64 d).toNat % 32 := by decide

/-- IncrementTouchesOneCounter: a counter at 14, the last that goes up, and one at 15. -/
theorem test_witness_increment : (nibGet 0xE0#64 1).toNat < 15 ∧ ¬ (nibGet 0xF0#64 1).toNat < 15 ∧ (0 : Fin 16) ≠ 1 := by
  decide

/-- ScanHalvesEveryCounterAndCountsTheOdd, LineViewHoldsEveryCounter, ByteViewHoldsTwoCounters, ClogIsTheLeastExponent: the ends of
their ranges. -/
theorem test_witness_ranges : (0 < 1 ∧ 127 < 128 ∧ 8 * 1 ≤ 8) ∧ 63 < 64 ∧ 1 ≤ 1 := by decide

end Sys2Proof.Tests
end

/-! SUPPORT. The frame of the build parameter LOG2_NB_MAX (00_scope R6): each form of a step in `step_cases` keeps it. -/

namespace Sys2Proof.Machine

@[simp] theorem State.resetEdge_log2NbMax (s : State) : s.resetEdge.log2NbMax = s.log2NbMax := rfl

@[simp] theorem State.portEdge_log2NbMax (s : State) : s.portEdge.log2NbMax = s.log2NbMax := by
  unfold State.portEdge
  split
  · simp
  · split <;> simp

/-- Settles O26: a command keeps its surroundings, the parameter among them, and every other event is an update that keeps
it. -/
theorem buildParameterNeverChanges : Obligations.BuildParameterNeverChanges := by
  intro s t h
  obtain ⟨_, reset⟩ | ⟨_, _, refusal⟩ | ⟨_, _, _, command⟩ | ⟨_, _, _, port⟩ := step_cases s
  · obtain rfl : s.resetEdge = t := by simpa [reset] using h
    exact s.resetEdge_log2NbMax
  · simp [refusal] at h
  · obtain ⟨surroundings, _⟩ := exec_surroundings (command.symm.trans h)
    exact surroundings.log2NbMax.trans s.sampled_log2NbMax
  · obtain rfl : s.portEdge = t := by simpa [port] using h
    exact s.portEdge_log2NbMax

end Sys2Proof.Machine

/-! SUPPORT. The family of the state: what a step that answers can do to the sketch, the invariant kept by each of these forms, and the
frames of the commands (10_state R34 to R36). -/

namespace Sys2Proof.Machine

/-! ## What a command and a step can do -/

/-- A command that answers does nothing but respond, or it is the INIT that configures the block, or a RECORD in READY mode, with
or without an aging pass (10_state R36). -/
theorem exec_next_cases {i : Instr} {s t : State} (h : exec i s = .next t) :
    (∃ st data, t = s.respond st data) ∨
    (∃ cap, i = .init cap ∧ s.mode = .unconfigured ∧ s.capLegal cap = true ∧
      t = (s.configured (log2Tl cap.toNat)).respond .ok 0#4) ∨
    (∃ x, i = .record x ∧ s.mode = .ready ∧
      ((s.ages x = false ∧ t = (s.counted x).respond .ok 0#4) ∨
        (s.ages x = true ∧ t = (s.counted x).agingPass.respond .ok 0#4))) := by
  cases i with
  | init cap =>
    obtain ⟨_, e⟩ | ⟨_, _, e⟩ | ⟨mode, legal, e⟩ := execInit_cases cap s <;> rw [exec, e] at h <;> cases h
    · exact .inl ⟨.errState, 0#4, rfl⟩
    · exact .inl ⟨.errCapacity, 0#4, rfl⟩
    · exact .inr (.inl ⟨cap, rfl, mode, legal, rfl⟩)
  | record x =>
    obtain ⟨_, e⟩ | ⟨_, _, e⟩ | ⟨mode, _, ages, e⟩ | ⟨mode, _, ages, _, e⟩ := execRecord_cases x s <;>
      rw [exec, e] at h <;> cases h
    · exact .inl ⟨.errState, 0#4, rfl⟩
    · exact .inr (.inr ⟨x, rfl, mode, .inl ⟨ages, rfl⟩⟩)
    · exact .inr (.inr ⟨x, rfl, mode, .inr ⟨ages, rfl⟩⟩)
  | estimate x =>
    obtain ⟨_, e⟩ | ⟨_, _, e⟩ | ⟨_, _, e⟩ := execEstimate_cases x s <;> rw [exec, e] at h <;> cases h
    · exact .inl ⟨.errState, 0#4, rfl⟩
    · exact .inl ⟨.ok, s.estimateOf x, rfl⟩
  | rsvd3 arg =>
    rw [exec, execRsvd3] at h
    cases h
    exact .inl ⟨.errIllegal, 0#4, rfl⟩

/-- A step that is taken is a hardware reset, the execution of the command in BUSY, or an event at the ports. -/
theorem step_next_cases {s t : State} (h : step s = .next t) :
    (s.driven.rst = true ∧ t = s.resetEdge) ∨
    (s.driven.rst = false ∧ s.engine = .busy ∧ exec s.fetched s.sampled = .next t) ∨
    (s.driven.rst = false ∧ s.engine ≠ .busy ∧ t = s.portEdge) := by
  obtain ⟨rst, e⟩ | ⟨_, _, e⟩ | ⟨rst, _, busy, e⟩ | ⟨rst, _, engine, e⟩ := step_cases s <;> rw [e] at h
  · cases h; exact .inl ⟨rst, rfl⟩
  · cases h
  · exact .inr (.inl ⟨rst, busy, h⟩)
  · cases h; exact .inr (.inr ⟨rst, engine, rfl⟩)

theorem State.respond_sameSketch (s : State) (st : Status) (data : Nibble) : s.SameSketch (s.respond st data) :=
  ⟨rfl, rfl, rfl, rfl, rfl, rfl⟩

theorem State.sampled_sameSketch (s : State) : s.SameSketch s.sampled := ⟨rfl, rfl, rfl, rfl, rfl, rfl⟩

/-- No event at the ports touches the sketch (10_state R36). -/
theorem State.portEdge_sameSketch (s : State) : s.SameSketch s.portEdge := by
  unfold State.portEdge
  split
  · exact ⟨rfl, rfl, rfl, rfl, rfl, rfl⟩
  · split
    · exact ⟨rfl, rfl, rfl, rfl, rfl, rfl⟩
    · exact s.sampled_sameSketch

/-- Without hardware reset a step leaves the sketch alone, or executes the INIT that configures the block, or a RECORD in READY
mode (10_state R36). -/
theorem step_sketch_cases {s t : State} (rst : s.driven.rst = false) (h : step s = .next t) :
    s.SameSketch t ∨
    (s.engine = .busy ∧ s.mode = .unconfigured ∧ ∃ cap, s.fetched = .init cap) ∨
    (s.engine = .busy ∧ s.mode = .ready ∧ ∃ x, s.fetched = .record x ∧
      (t = (s.sampled.counted x).respond .ok 0#4 ∨ t = (s.sampled.counted x).agingPass.respond .ok 0#4)) := by
  obtain ⟨rst', _⟩ | ⟨_, busy, command⟩ | ⟨_, _, rfl⟩ := step_next_cases h
  · simp [rst] at rst'
  · obtain ⟨st, data, rfl⟩ | ⟨cap, fetched, mode, _⟩ | ⟨x, fetched, mode, result⟩ := exec_next_cases command
    · exact .inl ⟨rfl, rfl, rfl, rfl, rfl, rfl⟩
    · exact .inr (.inl ⟨busy, mode, cap, fetched⟩)
    · exact .inr (.inr ⟨busy, mode, x, fetched, result.imp And.right And.right⟩)
  · exact .inl s.portEdge_sameSketch

/-! ## The bytes RECORD leaves alone -/

/-- RECORD's four updates leave every byte outside the item's words alone. -/
theorem State.counted_readByte_other (s : State) (h : Word) {a : Nat} (other : ∀ d, a / 8 ≠ (s.positions h d).word) :
    (s.counted h).table.readByte a = s.table.readByte a :=
  bumpAll_readByte_other s.table _ other

/-- The four updates and the pass leave every byte alone that is neither in use nor in the item's words. -/
theorem State.agingPass_counted_readByte_other (s : State) (h : Word) {a : Nat} (above : 8 * s.nwInUse ≤ a)
    (other : ∀ d, a / 8 ≠ (s.positions h d).word) :
    (s.counted h).agingPass.table.readByte a = s.table.readByte a :=
  (readByte_resetAll_above _ above).trans (s.counted_readByte_other h other)

/-- A command keeps the draw of the unwritten bytes (log entry 2). -/
theorem exec_draw {i : Instr} {s t : State} (h : exec i s = .next t) : t.table.draw = s.table.draw := by
  obtain ⟨st, data, rfl⟩ | ⟨cap, _, _, _, rfl⟩ | ⟨x, _, _, ⟨_, rfl⟩ | ⟨_, rfl⟩⟩ := exec_next_cases h <;> simp

/-! ## The sizes -/

/-- `Clog2(c)` is at most `k` exactly if 2^`k` reaches `c` (43_commands R166). -/
theorem clog2_le_iff {c k : Nat} (hc : 1 ≤ c) : clog2 c ≤ k ↔ c ≤ 2 ^ k := by
  unfold clog2
  split
  · have := Nat.one_le_two_pow (n := k)
    omega
  · rw [Nat.add_one_le_iff, Nat.log2_lt (by omega)]
    omega

/-- A legal capacity configures a table length from 2^5 up to the largest one (43_commands R165, R166). -/
theorem log2Tl_bounds {s : State} {cap : Int} (legal : s.capLegal cap = true) :
    5 ≤ log2Tl cap.toNat ∧ log2Tl cap.toNat ≤ s.log2NbMax.val + 5 := by
  obtain ⟨one_le, le_max⟩ : 1 ≤ cap ∧ cap ≤ (capMax s.log2NbMax : Int) := by simpa [State.capLegal] using legal
  have reach : cap.toNat ≤ 2 ^ (s.log2NbMax.val + 5) := by
    rw [Nat.pow_add, Nat.mul_comm]
    exact Int.toNat_le.mpr le_max
  have := (clog2_le_iff (by omega)).mpr reach
  simp only [log2Tl, log2TlMin]
  omega

/-- INIT's size registers hold the sizes for LOG2_TL = `k` without wrapping (10_state R34 I2). -/
theorem State.configured_sizedBy {s : State} {k : Nat} (floor : 5 ≤ k) (ceiling : k ≤ s.log2NbMax.val + 5) :
    (s.configured k).SizedBy k := by
  have hk : k ≤ 37 := by omega
  have h1 : 2 ^ k ≤ 2 ^ 37 := Nat.pow_le_pow_right (by decide) hk
  have h2 : 2 ^ (k - 5) ≤ 2 ^ 37 := Nat.pow_le_pow_right (by decide) (by omega)
  refine ⟨floor, ceiling, ?_, ?_, ?_⟩
  · exact Nat.mod_eq_of_lt (show 2 ^ k < 2 ^ 64 by omega)
  · exact Nat.mod_eq_of_lt (show 2 ^ (k - 5) < 2 ^ 64 by omega)
  · exact Nat.mod_eq_of_lt (show 10 * 2 ^ k < 2 ^ 64 by omega)

theorem State.SizedBy.congr {s t : State} {k : Nat} (sized : s.SizedBy k) (tableLen : t.tableLen = s.tableLen)
    (blockCount : t.blockCount = s.blockCount) (sampleSize : t.sampleSize = s.sampleSize)
    (param : t.log2NbMax = s.log2NbMax) : t.SizedBy k :=
  ⟨sized.floor, param ▸ sized.ceiling, tableLen ▸ sized.tableLen, blockCount ▸ sized.blockCount,
    sampleSize ▸ sized.sampleSize⟩

/-! ## The invariant, one lemma per update -/

/-- The item's four words are in use (41_index_mapper R130). -/
theorem State.Inv.positions_word_lt {s : State} (inv : s.Inv) (ready : s.mode = .ready) (h : Word) (d : Fin 4) :
    (s.positions h d).word < s.nwInUse := by
  obtain ⟨k, sized⟩ := inv.sized ready
  have block : blockIndex (mix h 0) s.blockCount < s.blockCount.toNat := by
    rw [blockIndex_of_two_pow _ _ sized.blockCount, sized.blockCount]
    exact Nat.mod_lt _ (Nat.two_pow_pos _)
  have offset : counterOffset (mix h d) d < 128 := by rw [counterOffset_eq]; omega
  simp only [State.positions, pos, locate, positionOf, State.nwInUse, wordsPerBlock, ctrsPerWord]
  omega

/-- In UNCONFIGURED mode nothing of the table has been written (10_state R35). -/
theorem State.Inv.addresses_of_unconfigured {s : State} (inv : s.Inv) (mode : s.mode = .unconfigured) :
    s.table.addresses = [] := by
  obtain ⟨_, blockCount, _, _⟩ := inv.unconfigured mode
  simpa [State.nwInUse, blockCount] using inv.inUse

/-- The invariant speaks of the sketch, the build parameter and the numbering alone. -/
theorem State.Inv.of_sameSketch {s t : State} (inv : s.Inv) (same : s.SameSketch t) (param : t.log2NbMax = s.log2NbMax)
    (answered : t.accepted = t.responses.length + t.engine.outstanding) : t.Inv := by
  obtain ⟨mode, tableLen, blockCount, sampleSize, addCount, table⟩ := same
  refine ⟨?_, fun ready => ?_, ?_, ?_, answered⟩
  · rw [mode, tableLen, blockCount, sampleSize, addCount]; exact inv.unconfigured
  · obtain ⟨k, sized⟩ := inv.sized (mode ▸ ready)
    exact ⟨k, sized.congr tableLen blockCount sampleSize param⟩
  · rw [mode, addCount, sampleSize]; exact inv.counted
  · rw [State.nwInUse, table, blockCount]; exact inv.inUse

/-- A command in BUSY is answered (30_encoding R81, R82). -/
theorem State.Inv.respond {s : State} (inv : s.Inv) (busy : s.engine = .busy) (st : Status) (data : Nibble) :
    (s.respond st data).Inv :=
  inv.of_sameSketch (s.respond_sameSketch st data) rfl (by simpa [busy, Engine.outstanding] using inv.answered)

theorem State.Inv.sampled {s : State} (inv : s.Inv) : s.sampled.Inv :=
  inv.of_sameSketch s.sampled_sameSketch rfl inv.answered

/-- Each event at the ports keeps the numbering and the responses in balance (30_encoding R81). -/
theorem State.Inv.portEdge {s : State} (inv : s.Inv) (rst : s.driven.rst = false) (engine : s.engine ≠ .busy) :
    s.portEdge.Inv := by
  refine inv.of_sameSketch s.portEdge_sameSketch s.portEdge_log2NbMax ?_
  have answered := inv.answered
  obtain ⟨idle, _, e⟩ | ⟨idle, _, e⟩ | ⟨resp, _, e⟩ | ⟨resp, _, e⟩ := portEdge_cases s rst engine
  · simpa [e, idle, Engine.outstanding] using answered
  · simpa [e, idle] using answered
  · simpa [e, resp, Engine.outstanding] using answered
  · simpa [e, resp] using answered

/-- Hardware reset establishes the invariant from every state (70_reset_and_hazards R246). -/
theorem State.resetEdge_inv (s : State) : s.resetEdge.Inv :=
  ⟨fun _ => ⟨rfl, rfl, rfl, rfl⟩, nofun, nofun, rfl, rfl⟩

/-- The INIT that configures the block brings exactly the words it clears into use (42_counter_table R147). -/
theorem State.Inv.configured {s : State} (inv : s.Inv) (mode : s.mode = .unconfigured) {k : Nat} (floor : 5 ≤ k)
    (ceiling : k ≤ s.log2NbMax.val + 5) : (s.configured k).Inv := by
  have sized := State.configured_sizedBy floor ceiling
  refine ⟨nofun, fun _ => ⟨k, sized⟩, fun _ => ?_, ?_, inv.answered⟩
  · have := Nat.two_pow_pos k
    simp only [State.configured_addCount, sized.sampleSize, BitVec.toNat_ofNat]
    omega
  · rw [State.nwInUse, sized.blockCount]
    exact clearAll_addresses (inv.addresses_of_unconfigured mode) _

/-- New counts keep the invariant when they list no other address and stay below the threshold. -/
theorem State.Inv.withCounts {s : State} (inv : s.Inv) (ready : s.mode = .ready) {m : Memory} {n : Word}
    (addresses : m.addresses = List.range (8 * s.nwInUse)) (below : n.toNat < s.sampleSize.toNat) :
    (s.withCounts m n).Inv := by
  refine ⟨by simp [ready], fun _ => ?_, fun _ => below, addresses, inv.answered⟩
  obtain ⟨k, sized⟩ := inv.sized ready
  exact ⟨k, sized.congr rfl rfl rfl rfl⟩

theorem State.Inv.counted_addresses {s : State} (inv : s.Inv) (ready : s.mode = .ready) (h : Word) :
    (s.counted h).table.addresses = List.range (8 * s.nwInUse) :=
  bumpAll_addresses inv.inUse (inv.positions_word_lt ready h)

theorem State.counted_addCount_le (s : State) (h : Word) : (s.counted h).addCount.toNat ≤ s.addCount.toNat + 1 := by
  rw [State.counted_addCount]
  split <;> bv_omega

/-- A RECORD without a pass leaves the count below the threshold (44_aging R196). -/
theorem State.Inv.counted_of_not_ages {s : State} (inv : s.Inv) (ready : s.mode = .ready) {h : Word}
    (ages : s.ages h = false) : (s.counted h).Inv := by
  refine inv.withCounts ready (inv.counted_addresses ready h) ?_
  cases changed : (bumpAll s.table (s.positions h)).2
  · simpa using inv.counted ready
  · simpa [State.ages, changed, fires] using ages

theorem ageCount_le (n odd : Nat) : ageCount n odd ≤ n / 2 := Nat.div_le_div_right (Nat.sub_le _ _)

/-- The pass leaves the count at no more than half the threshold (44_aging R198, R199). -/
theorem State.Inv.agingPass_counted {s : State} (inv : s.Inv) (ready : s.mode = .ready) (h : Word) :
    (s.counted h).agingPass.Inv := by
  refine inv.withCounts ready (resetAll_addresses (inv.counted_addresses ready h) le_rfl) ?_
  have before := inv.counted ready
  have counted := s.counted_addCount_le h
  have aged := ageCount_le (s.counted h).addCount.toNat (resetAll (s.counted h).table (s.counted h).nwInUse).2
  rw [BitVec.toNat_ofNat]
  refine (Nat.mod_le _ _).trans_lt ?_
  omega

/-- A command in BUSY keeps the invariant. -/
theorem State.Inv.exec {i : Instr} {s t : State} (inv : s.Inv) (busy : s.engine = .busy) (h : exec i s = .next t) :
    t.Inv := by
  obtain ⟨st, data, rfl⟩ | ⟨cap, _, mode, legal, rfl⟩ | ⟨x, _, ready, ⟨ages, rfl⟩ | ⟨_, rfl⟩⟩ := exec_next_cases h
  · exact inv.respond busy st data
  · obtain ⟨floor, ceiling⟩ := log2Tl_bounds legal
    exact (inv.configured mode floor ceiling).respond busy _ _
  · exact (inv.counted_of_not_ages ready ages).respond busy _ _
  · exact (inv.agingPass_counted ready x).respond busy _ _

/-! ## The obligations -/

/-- Settles O14: reset establishes the invariant, and a command and an event at the ports keep it. -/
theorem stepKeepsTheInvariant : Obligations.StepKeepsTheInvariant := by
  intro s t inv h
  obtain ⟨_, rfl⟩ | ⟨_, busy, command⟩ | ⟨rst, engine, rfl⟩ := step_next_cases h
  · exact s.resetEdge_inv
  · exact inv.sampled.exec busy command
  · exact inv.portEdge rst engine

/-- Settles O17: in READY mode a step leaves the sketch alone or is a RECORD, which writes no register but the count. -/
theorem readyConfigurationIsFixed : Obligations.ReadyConfigurationIsFixed := by
  intro s t ready rst h
  obtain same | ⟨_, mode, _⟩ | ⟨_, _, x, _, rfl | rfl⟩ := step_sketch_cases rst h
  · exact ⟨same.mode.trans ready, same.tableLen, same.blockCount, same.sampleSize⟩
  · simp [ready] at mode
  · exact ⟨ready, rfl, rfl, rfl⟩
  · exact ⟨ready, rfl, rfl, rfl⟩

/-- Settles O18: any other step leaves the sketch alone. -/
theorem onlyRecordAndInitWriteCounts : Obligations.OnlyRecordAndInitWriteCounts := by
  intro s t rst h changed
  obtain same | ⟨busy, mode, fetched⟩ | ⟨busy, ready, x, fetched, _⟩ := step_sketch_cases rst h
  · simp [same.addCount, same.table] at changed
  · exact ⟨busy, .inr ⟨mode, fetched⟩⟩
  · exact ⟨busy, .inl ⟨ready, x, fetched⟩⟩

/-- Settles O19: a RECORD writes its item's words and the words of its pass, all of which are in use. -/
theorem wordsAboveThoseInUseAreNeverWritten : Obligations.WordsAboveThoseInUseAreNeverWritten := by
  intro s t inv ready rst h a above
  have other (x : Word) (d : Fin 4) : a / 8 ≠ (s.sampled.positions x d).word := by
    have inUse : _ < 8 * s.blockCount.toNat := inv.sampled.positions_word_lt ready x d
    omega
  obtain same | ⟨_, mode, _⟩ | ⟨_, _, x, _, rfl | rfl⟩ := step_sketch_cases rst h
  · rw [same.table]
  · simp [ready] at mode
  · exact s.sampled.counted_readByte_other x (other x)
  · exact s.sampled.agingPass_counted_readByte_other x above (other x)

/-- Settles O30: INIT either only responds or configures the block, clearing the words it brings into use. -/
theorem initFrame : Obligations.InitFrame := by
  intro cap s t h
  obtain ⟨surroundings, engine⟩ := exec_surroundings h
  refine ⟨surroundings, engine, exec_draw h, ?_⟩
  obtain ⟨st, data, rfl⟩ | ⟨_, ⟨⟩, _, _, rfl⟩ | ⟨_, ⟨⟩, _⟩ := exec_next_cases h
  · exact ⟨fun _ _ => rfl, fun _ => ⟨s.respond_sameSketch st data, fun _ => rfl⟩⟩
  · have ok : rspStatus (rspWord .ok 0#4) = 0b00#2 := by decide
    exact ⟨fun _ above => readByte_clearAll_above s.table above, fun error => (error ok).elim⟩

/-- Settles O35: RECORD either only responds or writes the counts, with or without the pass. -/
theorem recordFrame : Obligations.RecordFrame := by
  intro h s t executes
  obtain ⟨surroundings, engine⟩ := exec_surroundings executes
  have draw := exec_draw executes
  obtain ⟨st, data, rfl⟩ | ⟨_, ⟨⟩, _⟩ | ⟨_, ⟨⟩, ready, ⟨_, rfl⟩ | ⟨ages, rfl⟩⟩ := exec_next_cases executes
  · exact ⟨surroundings, engine, rfl, rfl, rfl, rfl, draw, fun _ _ _ => rfl, fun _ _ _ => rfl, fun _ => ⟨rfl, rfl⟩⟩
  · exact ⟨surroundings, engine, rfl, rfl, rfl, rfl, draw, fun _ _ other => s.counted_readByte_other h other,
      fun _ _ other => s.counted_readByte_other h other, by simp [ready]⟩
  · exact ⟨surroundings, engine, rfl, rfl, rfl, rfl, draw, by simp [ages],
      fun _ above other => s.agingPass_counted_readByte_other h above other, by simp [ready]⟩

/-- Settles O12: each field at its reset value, no drive listed and no byte written. -/
theorem resetStateValues : Obligations.ResetStateValues :=
  ⟨rfl, rfl, rfl, rfl, rfl, rfl, rfl, rfl, Memory.readByte_unspecified _⟩

/-- Settles O13: every part of the invariant by its value at reset. -/
theorem resetMeetsTheInvariant : Obligations.ResetMeetsTheInvariant :=
  ⟨fun _ => ⟨rfl, rfl, rfl, rfl⟩, nofun, nofun, rfl, rfl⟩

/-- Settles O38: of the cases of a command, ESTIMATE and RSVD3 can only respond. -/
theorem estimateAndReservedFrame : Obligations.EstimateAndReservedFrame := by
  intro x i s t command h
  obtain ⟨st, data, rfl⟩ | ⟨_, rfl, _⟩ | ⟨_, rfl, _⟩ := exec_next_cases h
  · exact ⟨rfl, fun _ => rfl⟩
  · simp at command
  · simp at command

end Sys2Proof.Machine

/-! SUPPORT. The family of the table's layout: the matrix, the line and the byte view name the counters of the word view (20_memory
R48 to R51). -/

namespace Sys2Proof.Machine

/-! ## Fields of fields -/

/-- A bit field inside a bit field is a field of the whole. -/
theorem extractLsb'_extractLsb' {n : Nat} (x : BitVec n) (start : Nat) {width i len : Nat} (inside : i + len ≤ width) :
    (x.extractLsb' start width).extractLsb' i len = x.extractLsb' (start + i) len := by
  refine BitVec.eq_of_getLsbD_eq fun j hj => ?_
  have : i + j < width := by omega
  simp [hj, this, Nat.add_assoc]

/-- The counter at offset `o` of a block is a four-bit field of word `o >> 4` of the block (20_memory R48, R50). -/
theorem Memory.counter_eq (m : Memory) (b o : Nat) :
    m.counter b o = (m.readWord (8 * b + o / 16)).extractLsb' (4 * (o % 16)) 4 := rfl

/-! ## The matrix -/

/-- The position of an in-block offset holds the counter at that offset (41_index_mapper R128, 20_memory R48). -/
@[simp] theorem Memory.at_positionOf (m : Memory) (b o : Nat) : m.at (positionOf b o) = m.counter b o := rfl

/-- The position of row `d` is in the item's block, at column `m_d[4:0]` of segment `d` (41_index_mapper R127, R129). -/
theorem pos_eq (h blockCount : Word) (d : Fin 4) :
    pos h blockCount d = positionOf (blockIndex (mix h 0) blockCount) (32 * d.val + (mix h d).toNat % 32) := by
  rw [pos, locate, counterOffset_eq]

/-- The 32 columns of row `d` that a block holds are the offsets of its segment `d` (20_memory R48). -/
theorem Memory.matrix_segment (m : Memory) (d : Fin 4) (b : Nat) {c : Nat} (hc : c < 32) :
    m.matrix d (32 * b + c) = m.counter b (32 * d.val + c) := by
  rw [Memory.matrix, show (32 * b + c) / 32 = b by omega, show (32 * b + c) % 32 = c by omega]

/-- Settles O47: the item's position and the matrix entry are the same offset of the same block. -/
theorem eachRowKeepsToItsSegment : Obligations.EachRowKeepsToItsSegment := by
  intro m h blockCount d
  rw [pos_eq, Memory.at_positionOf, Memory.matrix_segment _ _ _ (Nat.mod_lt _ (by decide))]

/-! ## The line view -/

/-- Line bits `64q+63 : 64q` are word `q` of the block (20_memory R49). -/
theorem Memory.line_word (m : Memory) (b : Nat) {q : Nat} (hq : q < 8) :
    (m.line b).extractLsb' (64 * q) 64 = m.readWord (8 * b + q) := by
  unfold Memory.line
  obtain below | rfl : q < 7 ∨ q = 7 := by omega
  · interval_cases q <;> repeat rw [BitVec.extractLsb'_append_eq_of_le (by decide)]
    all_goals exact BitVec.extractLsb'_append_eq_right
  · repeat rw [BitVec.extractLsb'_append_eq_of_le (by decide)]
    exact BitVec.extractLsb'_eq_self

/-- Settles O52: the counter's four bits lie in the 64 bits of its word. -/
theorem lineViewHoldsEveryCounter : Obligations.LineViewHoldsEveryCounter := by
  intro m b o ho
  calc (m.line b).extractLsb' (4 * o) 4
      = (m.line b).extractLsb' (64 * (o / 16) + 4 * (o % 16)) 4 := by
        rw [show 64 * (o / 16) + 4 * (o % 16) = 4 * o by omega]
    _ = ((m.line b).extractLsb' (64 * (o / 16)) 64).extractLsb' (4 * (o % 16)) 4 :=
        (extractLsb'_extractLsb' _ _ (by omega)).symm
    _ = m.counter b o := by rw [m.line_word b (by omega), m.counter_eq]

/-! ## The byte view -/

/-- The byte at an address is byte `a & 7` of word `a >> 3` (20_memory R51, log entry 3). -/
theorem Memory.readByte_eq_byteOf (m : Memory) (a : Nat) : m.readByte a = byteOf (m.readWord (a / 8)) (a % 8) := by
  rw [Memory.readWord, byteOf_wordOf _ (Nat.mod_lt _ (by decide)), byteAddr, bytesPerWord, Nat.div_add_mod]

/-- Half `i` of byte `k` of a block, 0 the low one, is the counter at offset `2k + i` (20_memory R51). -/
theorem Memory.readByte_half (m : Memory) (b k : Nat) {i : Nat} (hi : i < 2) :
    (m.readByte (64 * b + k)).extractLsb' (4 * i) 4 = m.counter b (2 * k + i) := by
  calc (m.readByte (64 * b + k)).extractLsb' (4 * i) 4
      = (byteOf (m.readWord (8 * b + k / 8)) (k % 8)).extractLsb' (4 * i) 4 := by
        rw [m.readByte_eq_byteOf, show (64 * b + k) / 8 = 8 * b + k / 8 by omega, show (64 * b + k) % 8 = k % 8 by omega]
    _ = (m.readWord (8 * b + k / 8)).extractLsb' (8 * (k % 8) + 4 * i) 4 := extractLsb'_extractLsb' _ _ (by omega)
    _ = m.counter b (2 * k + i) := by
        rw [m.counter_eq, show (2 * k + i) / 16 = k / 8 by omega,
          show 4 * ((2 * k + i) % 16) = 8 * (k % 8) + 4 * i by omega]

/-- Settles O53: the two halves of the byte. -/
theorem byteViewHoldsTwoCounters : Obligations.ByteViewHoldsTwoCounters :=
  fun m b k _ => ⟨m.readByte_half b k (i := 0) (by decide), m.readByte_half b k (i := 1) (by decide)⟩

end Sys2Proof.Machine

/-! SUPPORT. The family of the encoding: a command word and its instruction are the same pair of an operation code and an operand
(30_encoding R84 to R93, R97). -/

namespace Sys2Proof

/-! ## The two fields of a command word -/

/-- The two fields make up the whole word (30_encoding R84). -/
theorem opField_append_argField (c : CmdWord) : (opField c ++ argField c : BitVec (2 + 64)) = c := by
  rw [opField, argField, BitVec.extractLsb'_append_extractLsb'_eq_extractLsb' (by decide)]
  exact BitVec.extractLsb'_eq_self

@[simp] theorem opField_append (op : BitVec 2) (arg : Word) : opField (op ++ arg : BitVec (2 + 64)) = op :=
  BitVec.extractLsb'_append_eq_left

@[simp] theorem opField_encode (i : Instr) : opField (encode i) = i.op := opField_append i.op i.arg

@[simp] theorem argField_encode (i : Instr) : argField (encode i) = i.arg := Laws.OpcodeMap.argField_append i.op i.arg

/-- A word is an instruction's encoding exactly if its fields are the instruction's operation code and operand. -/
theorem eq_encode_iff {c : CmdWord} {i : Instr} : c = encode i ↔ opField c = i.op ∧ argField c = i.arg := by
  constructor
  · rintro rfl
    exact ⟨opField_encode i, argField_encode i⟩
  · rintro ⟨op, arg⟩
    rw [encode, ← op, ← arg, opField_append_argField]

/-! ## Capacities in two's complement -/

/-- Two's complement loses no capacity in its range (30_encoding R87). -/
theorem toInt_ofInt_of_capEncodable {cap : Int} (h : capEncodable cap = true) : (BitVec.ofInt 64 cap).toInt = cap := by
  obtain ⟨lower, upper⟩ : -(2 ^ 63) ≤ cap ∧ cap < 2 ^ 63 := by simpa [capEncodable] using h
  exact BitVec.toInt_ofInt_eq_self (by decide) lower upper

/-- The signed value of a 64-bit operand is a capacity in the range (30_encoding R87). -/
theorem capEncodable_toInt (x : Word) : capEncodable x.toInt = true := by
  simpa [capEncodable] using And.intro x.le_toInt x.toInt_lt

/-! ## The decoder -/

theorem decode_of_opInit {c : CmdWord} (h : opField c = opInit) : decode c = .init (argField c).toInt := by
  rw [decode, h]; rfl

theorem decode_of_opRecord {c : CmdWord} (h : opField c = opRecord) : decode c = .record (argField c) := by
  rw [decode, h]; rfl

theorem decode_of_opEstimate {c : CmdWord} (h : opField c = opEstimate) : decode c = .estimate (argField c) := by
  rw [decode, h]; rfl

theorem decode_of_opRsvd3 {c : CmdWord} (h : opField c = opRsvd3) : decode c = .rsvd3 (argField c) := by
  rw [decode, h]; rfl

/-- The four operation codes are all there are (30_encoding R85, R91). -/
theorem decode_cases (c : CmdWord) :
    (opField c = opInit ∧ decode c = .init (argField c).toInt) ∨
    (opField c = opRecord ∧ decode c = .record (argField c)) ∨
    (opField c = opEstimate ∧ decode c = .estimate (argField c)) ∨
    (opField c = opRsvd3 ∧ decode c = .rsvd3 (argField c)) := by
  have codes : ∀ op : BitVec 2, op = opInit ∨ op = opRecord ∨ op = opEstimate ∨ op = opRsvd3 := by decide
  exact (codes (opField c)).imp (fun h => ⟨h, decode_of_opInit h⟩) <|
    .imp (fun h => ⟨h, decode_of_opRecord h⟩) <|
    .imp (fun h => ⟨h, decode_of_opEstimate h⟩) (fun h => ⟨h, decode_of_opRsvd3 h⟩)

@[simp] theorem op_decode (c : CmdWord) : (decode c).op = opField c := by
  obtain ⟨op, h⟩ | ⟨op, h⟩ | ⟨op, h⟩ | ⟨op, h⟩ := decode_cases c <;> rw [h, op] <;> rfl

@[simp] theorem arg_decode (c : CmdWord) : (decode c).arg = argField c := by
  obtain ⟨_, h⟩ | ⟨_, h⟩ | ⟨_, h⟩ | ⟨_, h⟩ := decode_cases c <;> simp [h, Instr.arg]

theorem wellFormed_decode (c : CmdWord) : (decode c).wellFormed = true := by
  obtain ⟨_, h⟩ | ⟨_, h⟩ | ⟨_, h⟩ | ⟨_, h⟩ := decode_cases c <;> simp [h, Instr.wellFormed, capEncodable_toInt]

@[simp] theorem encode_decode (c : CmdWord) : encode (decode c) = c :=
  (eq_encode_iff.mpr ⟨(op_decode c).symm, (arg_decode c).symm⟩).symm

theorem decode_encode {i : Instr} (hi : i.wellFormed = true) : decode (encode i) = i := by
  cases i with
  | init cap => rw [decode_of_opInit (opField_encode _), argField_encode, Instr.arg, toInt_ofInt_of_capEncodable hi]
  | record h => rw [decode_of_opRecord (opField_encode _), argField_encode, Instr.arg]
  | estimate h => rw [decode_of_opEstimate (opField_encode _), argField_encode, Instr.arg]
  | rsvd3 arg => rw [decode_of_opRsvd3 (opField_encode _), argField_encode, Instr.arg]

/-- Decoding and encoding are each other's inverse between the words and the well-formed instructions. -/
theorem decode_eq_iff {c : CmdWord} {i : Instr} (hi : i.wellFormed = true) : decode c = i ↔ c = encode i :=
  ⟨fun h => by rw [← h, encode_decode], fun h => by rw [h, decode_encode hi]⟩

/-! ## The opcode map -/

/-- The mask keeps the operation code and clears the operand (30_encoding R91). -/
theorem and_opMask (c : CmdWord) : c &&& opMask = (opField c ++ 0#64 : BitVec (2 + 64)) := by
  conv_lhs => rw [← opField_append_argField c]
  exact Laws.OpcodeMap.mask_append _ _

theorem encode_and_opMask (i : Instr) : encode i &&& opMask = i.matchWord := by
  cases i with
  | init cap => exact (Laws.OpcodeMap.init cap).1
  | record h => exact (Laws.OpcodeMap.record h).1
  | estimate h => exact (Laws.OpcodeMap.estimate h).1
  | rsvd3 arg => exact (Laws.OpcodeMap.rsvd3 arg).1

/-- A row's mask and match decide the operation code (30_encoding R91). -/
theorem and_opMask_eq_matchWord_iff (c : CmdWord) (i : Instr) : c &&& opMask = i.matchWord ↔ opField c = i.op := by
  rw [← encode_and_opMask, and_opMask, and_opMask, opField_encode]
  exact ⟨fun h => by simpa using congrArg opField h, fun h => by rw [h]⟩

/-- A row's mask and match decide the row's instruction with the word's own operand (30_encoding R91). -/
theorem and_opMask_eq_matchWord_iff_decode {c : CmdWord} {i : Instr} (hi : i.wellFormed = true)
    (arg : argField c = i.arg) : c &&& opMask = i.matchWord ↔ decode c = i := by
  rw [and_opMask_eq_matchWord_iff, decode_eq_iff hi, eq_encode_iff, and_iff_left arg]

/-! ## The obligations -/

/-- Settles O2: encoding keeps the operation code and the operand, and the decoder reads both back. -/
theorem decodeOfEncodeIsTheInstruction : Obligations.DecodeOfEncodeIsTheInstruction :=
  fun _ => decode_encode

/-- Settles O3: the decoded instruction's operation code and operand are the word's two fields, which make up the word. -/
theorem encodeOfDecodeIsTheWord : Obligations.EncodeOfDecodeIsTheWord :=
  fun c => ⟨wellFormed_decode c, encode_decode c⟩

/-- Settles O4: the four rows one by one, and the row of the decoded instruction itself. -/
theorem opcodeMapDecidesTheInstruction : Obligations.OpcodeMapDecidesTheInstruction := by
  intro c
  refine ⟨and_opMask_eq_matchWord_iff_decode (i := .init (argField c).toInt) (capEncodable_toInt _) BitVec.ofInt_toInt.symm,
    and_opMask_eq_matchWord_iff_decode (i := .record (argField c)) rfl rfl,
    and_opMask_eq_matchWord_iff_decode (i := .estimate (argField c)) rfl rfl,
    and_opMask_eq_matchWord_iff_decode (i := .rsvd3 (argField c)) rfl rfl, ?_⟩
  have row : c &&& opMask = (decode c).matchWord := (and_opMask_eq_matchWord_iff c _).mpr (op_decode c).symm
  obtain ⟨_, h⟩ | ⟨_, h⟩ | ⟨_, h⟩ | ⟨_, h⟩ := decode_cases c <;> rw [h] at row
  · exact .inl row
  · exact .inr (.inl row)
  · exact .inr (.inr (.inl row))
  · exact .inr (.inr (.inr row))

/-- Settles O1: the words of R97, each a closed value. -/
theorem specExampleWordsReadAndWrite : Obligations.SpecExampleWordsReadAndWrite := by
  unfold Obligations.SpecExampleWordsReadAndWrite
  decide

end Sys2Proof

/-! SUPPORT. The family of the ports and the response: the handshake's outputs, what a step does in each condition of the engine, and what
a response carries (30_encoding R77 to R83, R88 to R90). -/

namespace Sys2Proof.Machine

/-! ## The response word -/

@[simp] theorem rspStatus_rspWord (st : Status) (data : Nibble) : rspStatus (rspWord st data) = st.code :=
  BitVec.extractLsb'_append_eq_left

@[simp] theorem rspData_rspWord (st : Status) (data : Nibble) : rspData (rspWord st data) = data :=
  BitVec.extractLsb'_append_eq_right

/-- A command's response carries data 0, or it is the estimate of an ESTIMATE in READY mode (30_encoding R90). -/
theorem exec_rspReg_cases {i : Instr} {s t : State} (h : exec i s = .next t) :
    (∃ st, t.rspReg = rspWord st 0#4) ∨
    (∃ x, i = .estimate x ∧ s.mode = .ready ∧ t.rspReg = rspWord .ok (s.estimateOf x)) := by
  cases i with
  | init cap =>
    obtain ⟨_, e⟩ | ⟨_, _, e⟩ | ⟨_, _, e⟩ := execInit_cases cap s <;> rw [exec, e] at h <;> cases h
    all_goals exact .inl ⟨_, rfl⟩
  | record x =>
    obtain ⟨_, e⟩ | ⟨_, _, e⟩ | ⟨_, _, _, e⟩ | ⟨_, _, _, _, e⟩ := execRecord_cases x s <;> rw [exec, e] at h <;> cases h
    all_goals exact .inl ⟨_, rfl⟩
  | estimate x =>
    obtain ⟨_, e⟩ | ⟨_, _, e⟩ | ⟨ready, _, e⟩ := execEstimate_cases x s <;> rw [exec, e] at h <;> cases h
    · exact .inl ⟨_, rfl⟩
    · exact .inr ⟨x, rfl, ready, rfl⟩
  | rsvd3 arg =>
    rw [exec, execRsvd3] at h
    cases h
    exact .inl ⟨_, rfl⟩

/-! ## No word out of the table -/

/-- The words in use are words that exist (10_state R34 I2, 20_memory R45). -/
theorem State.Inv.nwInUse_le {s : State} (inv : s.Inv) (ready : s.mode = .ready) : s.nwInUse ≤ nwMax s.log2NbMax := by
  obtain ⟨k, sized⟩ := inv.sized ready
  have ceiling := sized.ceiling
  rw [State.nwInUse, nwMax, nbMax, sized.blockCount]
  exact Nat.mul_le_mul_left _ (Nat.pow_le_pow_right (by decide) (by omega))

theorem State.Inv.positionsExist {s : State} (inv : s.Inv) (ready : s.mode = .ready) (h : Word) :
    s.positionsExist h = true := by
  have wordExists (d : Fin 4) : (s.positions h d).word < nwMax s.log2NbMax :=
    (inv.positions_word_lt ready h d).trans_le (inv.nwInUse_le ready)
  simp [State.positionsExist, wordExists]

theorem State.Inv.scanExists {s : State} (inv : s.Inv) (ready : s.mode = .ready) : s.scanExists = true :=
  decide_eq_true (inv.nwInUse_le ready)

/-- Under the invariant every command answers (30_encoding R83). -/
theorem State.Inv.exec_answers {s : State} (inv : s.Inv) (i : Instr) : ∃ t, Machine.exec i s = .next t := by
  cases i with
  | init cap => obtain ⟨_, e⟩ | ⟨_, _, e⟩ | ⟨_, _, e⟩ := execInit_cases cap s <;> exact ⟨_, e⟩
  | record x =>
    obtain ⟨_, e⟩ | ⟨ready, missing, _⟩ | ⟨_, _, _, e⟩ | ⟨_, _, _, _, e⟩ := execRecord_cases x s
    · exact ⟨_, e⟩
    · simp [inv.positionsExist ready x, inv.scanExists ready] at missing
    · exact ⟨_, e⟩
    · exact ⟨_, e⟩
  | estimate x =>
    obtain ⟨_, e⟩ | ⟨ready, missing, _⟩ | ⟨_, _, e⟩ := execEstimate_cases x s
    · exact ⟨_, e⟩
    · simp [inv.positionsExist ready x] at missing
    · exact ⟨_, e⟩
  | rsvd3 arg => exact ⟨_, rfl⟩

/-! ## The handshake and the step -/

theorem State.cmdReady_iff (s : State) : s.cmdReady = true ↔ s.driven.rst = false ∧ s.engine = .idle := by
  simp [State.cmdReady]

theorem State.rspValid_iff (s : State) : s.rspValid = true ↔ s.driven.rst = false ∧ s.engine = .resp := by
  simp [State.rspValid]

/-- The port shows the response register exactly while `rsp_valid` = 1 (30_encoding R80). -/
theorem State.rspPort_of_rspValid {s : State} (h : s.rspValid = true) : s.rspPort = some s.rspReg := if_pos h

/-- A standing presentation is kept by `cmd_valid` = 1 with the same word, and by nothing else (30_encoding R79). -/
theorem State.handshakeBroken_iff {s : State} {c : CmdWord} (h : s.presented = some c) :
    s.handshakeBroken = true ↔ s.driven.cmdValid = false ∨ s.driven.cmdData ≠ c := by
  simp only [State.handshakeBroken, h, Bool.not_eq_true', Bool.and_eq_false_iff, decide_eq_false_iff_not]

theorem State.rspValid_of_engine_ne_resp {s : State} (h : s.engine ≠ .resp) : s.rspValid = false := by
  simp [State.rspValid, h]

theorem step_of_handshakeBroken {s : State} (rst : s.driven.rst = false) (broken : s.handshakeBroken = true) :
    step s = .refused .handshakeBroken := by
  simpa [rst, broken] using step_cases s

theorem step_of_busy {s : State} (rst : s.driven.rst = false) (kept : s.handshakeBroken = false)
    (busy : s.engine = .busy) : step s = exec s.fetched s.sampled := by
  simpa [rst, kept, busy] using step_cases s

theorem step_of_engine_ne_busy {s : State} (rst : s.driven.rst = false) (kept : s.handshakeBroken = false)
    (engine : s.engine ≠ .busy) : step s = .next s.portEdge := by
  simpa [rst, kept, engine] using step_cases s

/-- In IDLE a presented command is accepted (30_encoding R78). -/
theorem State.portEdge_of_idle {s : State} (rst : s.driven.rst = false) (idle : s.engine = .idle)
    (valid : s.driven.cmdValid = true) : s.portEdge = s.sampled.accept s.driven.cmdData := by
  simpa [idle, valid] using portEdge_cases s rst (by simp [idle])

/-- In RESP the response is transferred if the host is ready, and held if not (30_encoding R80). -/
theorem State.portEdge_of_resp {s : State} (rst : s.driven.rst = false) (resp : s.engine = .resp) :
    s.portEdge = if s.driven.rspReady then s.sampled.transfer else s.sampled := by
  have event := portEdge_cases s rst (by simp [resp])
  cases ready : s.driven.rspReady <;> simpa [resp, ready] using event

/-! ## The obligations -/

/-- Settles O22: every other response carries data 0. -/
theorem dataComesOnlyFromEstimate : Obligations.DataComesOnlyFromEstimate := by
  intro i s t h data
  obtain ⟨st, rspReg⟩ | ⟨x, rfl, ready, rspReg⟩ := exec_rspReg_cases h
  · simp [rspReg] at data
  · exact ⟨by rw [rspReg, rspStatus_rspWord]; rfl, ready, x, rfl⟩

/-- Settles O23: under the invariant the command answers, and every answer is in RESP. -/
theorem busyCommandReachesItsResponse : Obligations.BusyCommandReachesItsResponse := by
  intro s inv rst kept busy
  obtain ⟨t, command⟩ := inv.sampled.exec_answers s.fetched
  exact ⟨t, (step_of_busy rst kept busy).trans command, (exec_surroundings command).2⟩

/-- Settles O24: a command goes from BUSY to RESP, and an event at the ports accepts, transfers or waits. -/
theorem eachStepIsOnePhaseOfOneCommand : Obligations.EachStepIsOnePhaseOfOneCommand := by
  intro s t rst h
  obtain ⟨rst', _⟩ | ⟨_, busy, command⟩ | ⟨_, engine, rfl⟩ := step_next_cases h
  · simp [rst] at rst'
  · obtain ⟨surroundings, resp⟩ := exec_surroundings command
    exact .inr (.inr (.inl ⟨busy, resp, surroundings.accepted, surroundings.responses⟩))
  · obtain ⟨idle, _, e⟩ | ⟨_, _, e⟩ | ⟨resp, _, e⟩ | ⟨_, _, e⟩ := portEdge_cases s rst engine <;> rw [e]
    · exact .inr (.inl ⟨idle, rfl, rfl, rfl⟩)
    · exact .inl ⟨rfl, rfl, rfl⟩
    · exact .inr (.inr (.inr ⟨resp, rfl, rfl, rfl⟩))
    · exact .inl ⟨rfl, rfl, rfl⟩

/-- Settles O6: the port is ready in IDLE, and the event there is the acceptance. -/
theorem idleStepAcceptsThePresentedCommand : Obligations.IdleStepAcceptsThePresentedCommand := by
  intro s rst kept idle valid
  refine ⟨s.cmdReady_iff.mpr ⟨rst, idle⟩, ?_⟩
  rw [step_of_engine_ne_busy rst kept (by simp [idle]), State.portEdge_of_idle rst idle valid]
  rfl

/-- Settles O7: the event in RESP, with the host not ready and with the host ready. -/
theorem responseHoldsUntilTransferred : Obligations.ResponseHoldsUntilTransferred := by
  intro s rst kept resp
  refine ⟨State.rspPort_of_rspValid (s.rspValid_iff.mpr ⟨rst, resp⟩), s.portEdge,
    step_of_engine_ne_busy rst kept (by simp [resp]), s.portEdge_sameSketch, ?_⟩
  rw [State.portEdge_of_resp rst resp]
  cases s.driven.rspReady
  · exact ⟨rfl, rfl, fun _ => ⟨resp, rfl, rfl⟩, nofun⟩
  · exact ⟨rfl, rfl, nofun, fun _ => ⟨rfl, State.rspValid_of_engine_ne_resp nofun, rfl⟩⟩

/-- Settles O8: `rst` = 1 holds both outputs at 0; with `rst` = 0 each is 1 in its own condition of the engine. -/
theorem handshakeOutputsFollowTheEngine : Obligations.HandshakeOutputsFollowTheEngine := by
  intro s
  refine ⟨fun rst => ?_, fun rst => ⟨fun idle => ?_, fun busy => ?_, fun resp => ?_⟩⟩
  · simp [State.cmdReady, State.rspValid, rst]
  · simp [State.cmdReady, State.rspValid, rst, idle]
  · simp [State.cmdReady, State.rspValid, rst, busy]
  · simp [State.cmdReady, State.rspValid, rst, resp]

/-- Settles O10: the host's drive does not keep the presentation. -/
theorem brokenHandshakeIsRefused : Obligations.BrokenHandshakeIsRefused :=
  fun _ _ rst presented broken => step_of_handshakeBroken rst ((State.handshakeBroken_iff presented).mpr broken)

end Sys2Proof.Machine

/-! SUPPORT. The family of the hash mixer: each round of the finalizer is a bijection, the fold of a row as bit fields, the constants and
the corners, and what of the mixed hashes the positions read (40_hash_mixer R112 to R118). -/

namespace Sys2Proof.Machine

/-! ## The rounds of the finalizer -/

/-- The xor-shift rounds are invertible (40_hash_mixer R112). -/
theorem xorShift_bijective {n : Nat} (h : 32 ≤ n) : Function.Bijective fun x => xorShift x n :=
  Function.Involutive.bijective fun x => xorShift_xorShift x h

/-- A product by an odd constant loses nothing modulo 2^64, since the constant is coprime to the modulus (40_hash_mixer R112). -/
theorem mul_left_bijective_of_odd {c : Word} (odd : Odd c.toNat) : Function.Bijective fun x : Word => c * x := by
  refine Function.Injective.bijective_of_finite fun x y product => BitVec.eq_of_toNat_eq ?_
  have coprime : (2 ^ 64).gcd c.toNat = 1 := (Nat.coprime_two_left.mpr odd).pow_left 64
  have congruent : c.toNat * x.toNat ≡ c.toNat * y.toNat [MOD 2 ^ 64] := by
    simpa [Nat.ModEq] using congrArg BitVec.toNat product
  exact (congruent.cancel_left_of_coprime coprime).eq_of_lt_of_lt x.isLt y.isLt

/-! ## The rows -/

/-- The fold changes the low half alone, which takes in the high half (40_hash_mixer R113). -/
theorem extractLsb'_xorShift_low (t : Word) :
    (xorShift t 32).extractLsb' 0 32 = t.extractLsb' 0 32 ^^^ t.extractLsb' 32 32 := by
  refine BitVec.eq_of_getLsbD_eq fun i hi => ?_
  simp [xorShift, hi]

theorem extractLsb'_xorShift_high (t : Word) : (xorShift t 32).extractLsb' 32 32 = t.extractLsb' 32 32 := by
  refine BitVec.eq_of_getLsbD_eq fun i hi => ?_
  have : t.getLsbD (32 + (32 + i)) = false := BitVec.getLsbD_of_ge _ _ (by omega)
  simp [xorShift, hi, this]

/-- A row is the fold of the product modulo 2^64 (40_hash_mixer R113). -/
theorem rowHash_eq (b : Word) (d : Fin 4) :
    rowHash b d = xorShift (BitVec.ofNat 64 (b.toNat * (rowConst d).toNat)) 32 := by
  rw [rowHash, BitVec.ofNat_mul, BitVec.ofNat_toNat, BitVec.ofNat_toNat, BitVec.setWidth_eq, BitVec.setWidth_eq,
    BitVec.mul_comm]

@[simp] theorem rowHash_zero (d : Fin 4) : rowHash 0#64 d = 0#64 := by simp [rowHash, xorShift]

/-! ## The item 0 -/

@[simp] theorem fmix64_zero : fmix64 0#64 = 0#64 := by simp [fmix64, xorShift]

@[simp] theorem mix_zero (d : Fin 4) : mix 0#64 d = 0#64 := by simp [mix]

/-- The item 0 is at the first counter of each segment of block 0 (40_hash_mixer R116). -/
theorem pos_zero (blockCount : Word) (d : Fin 4) : pos 0#64 blockCount d = { word := 2 * d.val, nibble := 0 } := by
  have block : blockIndex 0#64 blockCount = 0 := by simp [blockIndex]
  rw [pos_eq, mix_zero, mix_zero, block]
  fin_cases d <;> rfl

/-! ## The obligations -/

/-- Settles O40: each of the five rounds is a bijection, the products because their constants are odd. -/
theorem finalizerIsABijection : Obligations.FinalizerIsABijection := by
  have shift : Function.Bijective fun x => xorShift x 33 := xorShift_bijective (by decide)
  have first : Function.Bijective fun x => fmixC1 * x := mul_left_bijective_of_odd (by decide)
  have second : Function.Bijective fun x => fmixC2 * x := mul_left_bijective_of_odd (by decide)
  exact shift.comp (second.comp (shift.comp (first.comp shift)))

/-- Settles O41: the two halves of the fold, at the row's product. -/
theorem rowFoldsTheHighHalfOntoTheLow : Obligations.RowFoldsTheHighHalfOntoTheLow := by
  intro b d t
  rw [rowHash_eq]
  exact ⟨extractLsb'_xorShift_low t, extractLsb'_xorShift_high t⟩

/-- Settles O46: a position is made of the block index and the low five bits of its row's mixed hash. -/
theorem onlyTheNamedMixBitsReachTheTable : Obligations.OnlyTheNamedMixBitsReachTheTable := by
  intro h g blockCount k _ count block column
  funext d
  rw [pos_eq, pos_eq, blockIndex_of_two_pow _ _ count, blockIndex_of_two_pow _ _ count, block, column]

/-- Settles O42: the table of the four constants, each a closed value. -/
theorem rowConstantsAreOddAndDistinct : Obligations.RowConstantsAreOddAndDistinct :=
  ⟨rfl, rfl, rfl, rfl, by decide, by decide⟩

/-- Settles O43: the item 0 passes every stage as 0; the mixed hashes of 1 and 2^64-1 are closed values. -/
theorem mixerCorners : Obligations.MixerCorners :=
  ⟨fmix64_zero, mix_zero, pos_zero, by decide⟩

end Sys2Proof.Machine

/-! SUPPORT. The family of the index mapper: the word and the nibble of a position as numbers, the block of an item, and no step out of
the table (41_index_mapper R126 to R131, 60_exceptions R221). -/

namespace Sys2Proof.Machine

/-! ## Word and nibble of a position -/

/-- Row `d` has words `2d` and `2d + 1` of the item's block; bit 4 of the mixed hash says which (41_index_mapper R127, R128). -/
theorem pos_word (h blockCount : Word) (d : Fin 4) :
    (pos h blockCount d).word =
      8 * blockIndex (mix h 0) blockCount + 2 * d.val + (mix h d).toNat / 16 % 2 := by
  simp only [pos_eq, positionOf, wordsPerBlock, ctrsPerWord]
  omega

/-- The nibble is the low four bits of the mixed hash, a segment being two whole words (41_index_mapper R128). -/
theorem pos_nibble (h blockCount : Word) (d : Fin 4) : (pos h blockCount d).nibble.val = (mix h d).toNat % 16 := by
  simp only [pos_eq, positionOf, Fin.val_ofNat]
  omega

theorem counterOffset_le (m : Word) (d : Fin 4) : counterOffset m d ≤ 127 := by
  rw [counterOffset_eq]
  omega

theorem blockIndex_lt (m0 : Word) {blockCount : Word} {k : Nat} (count : blockCount.toNat = 2 ^ k) :
    blockIndex m0 blockCount < blockCount.toNat := by
  rw [blockIndex_of_two_pow _ _ count, count]
  exact Nat.mod_lt _ (Nat.two_pow_pos k)

/-! ## The obligations -/

/-- Settles O16: of the kinds of step only a command could fault, and under the invariant every command answers. -/
theorem noStepFaultsUnderTheInvariant : Obligations.NoStepFaultsUnderTheInvariant := by
  intro s f inv
  obtain ⟨_, e⟩ | ⟨_, _, e⟩ | ⟨_, _, _, e⟩ | ⟨_, _, _, e⟩ := step_cases s <;> rw [e]
  · nofun
  · nofun
  · obtain ⟨t, answer⟩ := inv.sampled.exec_answers s.fetched
    simp [answer]
  · nofun

/-- Settles O44: the word and the nibble of a position, with the block index as the low bits of the upper half of `m0`. -/
theorem positionFormula : Obligations.PositionFormula := by
  intro h blockCount k _ count d
  rw [← blockIndex_of_two_pow _ _ count]
  exact ⟨pos_word h blockCount d, pos_nibble h blockCount d⟩

/-- Settles O45: each row has two words of the block to itself, and the blocks fill the words in use. -/
theorem positionsAreInBoundsAndSeparate : Obligations.PositionsAreInBoundsAndSeparate := by
  intro h blockCount p k hk count b
  have block : b < blockCount.toNat := blockIndex_lt _ count
  have word (d : Fin 4) : (pos h blockCount d).word = 8 * b + 2 * d.val + (mix h d).toNat / 16 % 2 :=
    pos_word h blockCount d
  have inTable : 8 * blockCount.toNat ≤ nwMax p := by
    rw [nwMax, nbMax, count]
    exact Nat.mul_le_mul_left _ (Nat.pow_le_pow_right (by decide) hk)
  refine ⟨block, fun d => ⟨counterOffset_le _ d, ?_, ?_, ?_, Nat.le_of_lt_succ (Fin.is_lt _)⟩, fun d e rises => ?_,
    by omega, inTable⟩
  · rw [word]; omega
  · rw [word]; omega
  · rw [word]; omega
  · rw [word, word]; omega

end Sys2Proof.Machine

/-! SUPPORT. The family of the Counter Table: the increment, the halving and the odd count of a word counter by counter, and the scan of
whole blocks (42_counter_table R141 to R146). -/

namespace Sys2Proof.Machine

/-! ## The increment -/

theorem nibInc_of_lt {v : Word} {n : Fin 16} (below : (nibGet v n).toNat < 15) :
    nibInc v n = (v + (1#64 <<< (4 * n.val)), true) := if_pos below

theorem nibInc_of_not_lt {v : Word} {n : Fin 16} (full : ¬ (nibGet v n).toNat < 15) : nibInc v n = (v, false) := if_neg full

/-- A counter below 15 leaves room for its increment: no carry leaves the word (42_counter_table R142). -/
theorem add_two_pow_lt {v : Word} {n : Fin 16} (below : (nibGet v n).toNat < 15) :
    v.toNat + 2 ^ (4 * n.val) < 2 ^ 64 := by
  have positive : 0 < 2 ^ (4 * n.val) := Nat.two_pow_pos _
  have width : 2 ^ 64 = 16 * 2 ^ (4 * (15 - n.val)) * 2 ^ (4 * n.val) := by
    rw [show 64 = 4 + 4 * (15 - n.val) + 4 * n.val by omega, Nat.pow_add, Nat.pow_add]
  have quotient : v.toNat / 2 ^ (4 * n.val) < 16 * 2 ^ (4 * (15 - n.val)) := by
    rw [Nat.div_lt_iff_lt_mul positive, ← width]
    exact v.isLt
  rw [nibGet_toNat] at below
  rw [width, ← Nat.div_lt_iff_lt_mul positive, Nat.add_div_right _ positive]
  omega

theorem toNat_nibInc {v : Word} {n : Fin 16} (below : (nibGet v n).toNat < 15) :
    (nibInc v n).1.toNat = v.toNat + 2 ^ (4 * n.val) := by
  have room := add_two_pow_lt below
  have addend : (1#64 <<< (4 * n.val)).toNat = 2 ^ (4 * n.val) := by
    rw [← BitVec.twoPow_eq]
    exact BitVec.toNat_twoPow_of_lt (by omega)
  rw [nibInc_of_lt below, BitVec.toNat_add, addend, Nat.mod_eq_of_lt room]

/-- Every counter of the word after an increment (42_counter_table R142). -/
theorem nibGet_nibInc {v : Word} {n : Fin 16} (below : (nibGet v n).toNat < 15) (m : Fin 16) :
    (nibGet (nibInc v n).1 m).toNat = if m = n then (nibGet v n).toNat + 1 else (nibGet v m).toNat := by
  have digit := digit_add v.toNat m.val (nibGet_toNat v n ▸ below)
  rw [← toNat_nibInc below, ← nibGet_toNat, ← nibGet_toNat, ← nibGet_toNat] at digit
  simpa only [Fin.ext_iff] using digit

/-! ## The halving -/

/-- The mask drops the top bit of each counter, where the shift put the low bit of the next (42_counter_table R144). -/
theorem getLsbD_halveMask : ∀ (n : Fin 16) (i : Fin 4), halveMask.getLsbD (4 * n.val + i.val) = decide (i.val < 3) := by
  decide

/-- HalveWord shifts each counter to the right by itself (42_counter_table R144). -/
theorem nibGet_halveWord (v : Word) (n : Fin 16) : nibGet (halveWord v) n = nibGet v n >>> 1 := by
  refine BitVec.eq_of_getLsbD_eq fun i hi => ?_
  have mask : halveMask.getLsbD (4 * n.val + i) = decide (i < 3) := getLsbD_halveMask n ⟨i, hi⟩
  rw [getLsbD_nibGet _ _ hi, halveWord, BitVec.getLsbD_and, BitVec.getLsbD_ushiftRight, BitVec.getLsbD_ushiftRight, mask]
  by_cases low : i < 3
  · rw [getLsbD_nibGet _ _ (by omega), show 1 + (4 * n.val + i) = 4 * n.val + (1 + i) by omega]
    simp [low]
  · rw [BitVec.getLsbD_of_ge (nibGet v n) (1 + i) (by omega)]
    simp [low]

theorem toNat_nibGet_halveWord (v : Word) (n : Fin 16) :
    (nibGet (halveWord v) n).toNat = (nibGet v n).toNat / 2 := by
  rw [nibGet_halveWord, BitVec.toNat_ushiftRight, Nat.shiftRight_eq_div_pow, Nat.pow_one]

/-! ## The odd count -/

/-- A count over a range of `n` groups of `k` is the sum of the groups' counts. -/
theorem countP_range_mul (p : Nat → Bool) (k n : Nat) :
    (List.range (k * n)).countP p = ((List.range n).map fun g => (List.range k).countP fun i => p (k * g + i)).sum := by
  induction n with
  | zero => rfl
  | succ n ih =>
    simp [Nat.mul_succ, List.range_add, List.range_succ, List.countP_map, ih, Function.comp_def]

/-- A count over a range is the sum of its single indices' counts. -/
theorem countP_range_eq_sum (p : Nat → Bool) (n : Nat) :
    (List.range n).countP p = ((List.range n).map fun i => if p i then 1 else 0).sum := by
  simpa using countP_range_mul p 1 n

/-- The mask keeps the low bit of each counter (42_counter_table R145). -/
theorem getLsbD_lowMask : ∀ (n : Fin 16) (i : Fin 4), lowMask.getLsbD (4 * n.val + i.val) = decide (i = 0) := by
  decide

/-- A counter is odd exactly if its low bit is set. -/
theorem nibGet_odd (v : Word) (n : Fin 16) : decide ((nibGet v n).toNat % 2 = 1) = v.getLsbD (4 * n.val) := by
  rw [← Nat.add_zero (4 * n.val), ← getLsbD_nibGet v n (by decide), BitVec.getLsbD, Nat.testBit_zero]

/-- The mask leaves of a counter its low bit alone, which is set exactly if the counter is odd (42_counter_table R145). -/
theorem getLsbD_and_lowMask (v : Word) (n : Fin 16) (i : Fin 4) :
    (v &&& lowMask).getLsbD (4 * n.val + i.val) = (decide ((nibGet v n).toNat % 2 = 1) && decide (i = 0)) := by
  rw [BitVec.getLsbD_and, getLsbD_lowMask, nibGet_odd]
  by_cases low : i = 0 <;> simp [low]

theorem countP_and_lowMask (v : Word) (n : Fin 16) :
    ((List.range 4).countP fun i => (v &&& lowMask).getLsbD (4 * n.val + i)) =
      if decide ((nibGet v n).toNat % 2 = 1) then 1 else 0 := by
  rw [← List.map_coe_finRange_eq_range, List.countP_map, Function.comp_def, funext (getLsbD_and_lowMask v n)]
  cases decide ((nibGet v n).toNat % 2 = 1) <;> rfl

/-- The odd count of a word is the number of its odd counters (42_counter_table R145). -/
theorem oddCount_eq_countP_range (v : Word) :
    oddCount v = (List.range 16).countP fun i => decide ((nibGet v (Fin.ofNat 16 i)).toNat % 2 = 1) := by
  rw [oddCount, popcount, countP_range_mul _ 4 16, countP_range_eq_sum]
  refine congrArg List.sum (List.map_congr_left fun i hi => ?_)
  have lane : (Fin.ofNat 16 i).val = i := Nat.mod_eq_of_lt (List.mem_range.mp hi)
  rw [← countP_and_lowMask, lane]

theorem oddCount_eq_countP_finRange (v : Word) :
    oddCount v = (List.finRange 16).countP fun n => decide ((nibGet v n).toNat % 2 = 1) := by
  rw [oddCount_eq_countP_range, ← List.map_coe_finRange_eq_range, List.countP_map]
  simp [Function.comp_def]

theorem oddCount_le (v : Word) : oddCount v ≤ 16 := by
  rw [oddCount_eq_countP_range]
  exact List.countP_le_length.trans_eq List.length_range

/-! ## The scan of whole blocks -/

/-- The scan halves every counter of the blocks it covers (42_counter_table R146). -/
theorem Memory.toNat_counter_resetAll (m : Memory) {n b o : Nat} (block : b < n) (offset : o < 128) :
    ((resetAll m (8 * n)).1.counter b o).toNat = (m.counter b o).toNat / 2 := by
  have scanned : wordsPerBlock * b + o / ctrsPerWord < 8 * n := by
    simp only [wordsPerBlock, ctrsPerWord]
    omega
  rw [Memory.counter, readWord_resetAll, if_pos scanned, toNat_nibGet_halveWord, Memory.counter]

/-- The counters of the table in order, by block and offset and by word and nibble (20_memory R48). -/
theorem Memory.counter_div_mod (m : Memory) (w i : Nat) (nibble : i < 16) :
    m.counter ((16 * w + i) / 128) ((16 * w + i) % 128) = nibGet (m.readWord w) (Fin.ofNat 16 i) := by
  have word : wordsPerBlock * ((16 * w + i) / 128) + (16 * w + i) % 128 / ctrsPerWord = w := by
    simp only [wordsPerBlock, ctrsPerWord]
    omega
  have lane : Fin.ofNat 16 ((16 * w + i) % 128) = Fin.ofNat 16 i := by
    apply Fin.ext
    simp only [Fin.val_ofNat]
    omega
  rw [Memory.counter, word, lane]

/-- The scan's result is the number of odd counters of the blocks it covers (42_counter_table R146). -/
theorem resetAll_odd_eq_countP (m : Memory) (n : Nat) :
    (resetAll m (8 * n)).2 =
      (List.range (128 * n)).countP fun j => decide ((m.counter (j / 128) (j % 128)).toNat % 2 = 1) := by
  rw [resetAll_odd, show 128 * n = 16 * (8 * n) by omega, countP_range_mul]
  refine congrArg List.sum (List.map_congr_left fun w _ => ?_)
  rw [oddCount_eq_countP_range]
  refine List.countP_congr fun i hi => ?_
  rw [m.counter_div_mod w i (List.mem_range.mp hi)]

/-! ## The obligations -/

/-- Settles O48: below 15 the word gains 1 in this counter alone, and at 15 nothing; the examples are closed values. -/
theorem incrementTouchesOneCounter : Obligations.IncrementTouchesOneCounter := by
  refine ⟨fun v n => ⟨fun below => ⟨?_, ?_, fun m other => ?_⟩, nibInc_of_not_lt⟩, by decide⟩
  · rw [nibInc_of_lt below]
  · rw [nibGet_nibInc below, if_pos rfl]
  · exact BitVec.eq_of_toNat_eq (by rw [nibGet_nibInc below, if_neg other])

/-- Settles O49: the definition, its counters one by one, and the examples as closed values. -/
theorem halvingIsLaneByLane : Obligations.HalvingIsLaneByLane :=
  ⟨fun _ => rfl, toNat_nibGet_halveWord, by decide⟩

/-- Settles O50: the definition, the bound, the number of odd counters, and the examples as closed values. -/
theorem oddCountCountsOddCounters : Obligations.OddCountCountsOddCounters :=
  ⟨fun v => ⟨rfl, oddCount_le v, oddCount_eq_countP_finRange v⟩, by decide⟩

/-- Settles O51: the scan word by word, read as blocks of 128 counters. -/
theorem scanHalvesEveryCounterAndCountsTheOdd : Obligations.ScanHalvesEveryCounterAndCountsTheOdd := by
  intro m n
  refine ⟨fun b o => m.toNat_counter_resetAll, fun w above => ?_, resetAll_odd_eq_countP m n⟩
  rw [readWord_resetAll, if_neg (by omega)]

end Sys2Proof.Machine

/-! SUPPORT. The family of the commands: which answer each command gives in which mode, RECORD's increments counter by counter, the
trigger of the aging pass, the estimate as a minimum, and the sizes INIT configures (43_commands). -/

namespace Sys2Proof.Machine

/-! ## The answer of a command in each mode -/

theorem exec_init_of_ready {s : State} (ready : s.mode = .ready) (cap : Int) :
    exec (.init cap) s = .next (s.raiseError .errState) := by
  simpa [exec, ready] using execInit_cases cap s

theorem exec_init_of_illegal {s : State} (mode : s.mode = .unconfigured) {cap : Int} (illegal : s.capLegal cap = false) :
    exec (.init cap) s = .next (s.raiseError .errCapacity) := by
  simpa [exec, mode, illegal] using execInit_cases cap s

theorem exec_init_of_legal {s : State} (mode : s.mode = .unconfigured) {cap : Int} (legal : s.capLegal cap = true) :
    exec (.init cap) s = .next ((s.configured (log2Tl cap.toNat)).respond .ok 0#4) := by
  simpa [exec, mode, legal] using execInit_cases cap s

theorem exec_record_of_unconfigured {s : State} (mode : s.mode = .unconfigured) (h : Word) :
    exec (.record h) s = .next (s.raiseError .errState) := by
  simpa [exec, mode] using execRecord_cases h s

theorem exec_estimate_of_unconfigured {s : State} (mode : s.mode = .unconfigured) (h : Word) :
    exec (.estimate h) s = .next (s.raiseError .errState) := by
  simpa [exec, mode] using execEstimate_cases h s

/-- Under the invariant the words of an ESTIMATE exist (43_commands R175). -/
theorem State.Inv.exec_estimate {s : State} (inv : s.Inv) (ready : s.mode = .ready) (h : Word) :
    Machine.exec (.estimate h) s = .next (s.respond .ok (s.estimateOf h)) := by
  simpa [Machine.exec, ready, inv.positionsExist ready h] using execEstimate_cases h s

/-- Under the invariant the words of a RECORD exist, and the trigger alone decides on the pass (43_commands R170). -/
theorem State.Inv.exec_record {s : State} (inv : s.Inv) (ready : s.mode = .ready) (h : Word) :
    Machine.exec (.record h) s =
      .next ((if s.ages h then (s.counted h).agingPass else s.counted h).respond .ok 0#4) := by
  cases ages : s.ages h <;>
    simpa [Machine.exec, ready, inv.positionsExist ready h, inv.scanExists ready, ages] using execRecord_cases h s

/-! ## RECORD's increments, counter by counter -/

/-- The four words of an item rise with the row (41_index_mapper R131). -/
theorem State.positions_word_rise (s : State) (h : Word) (d e : Fin 4) (rises : d < e) :
    (s.positions h d).word < (s.positions h e).word := by
  simp only [State.positions, pos_word]
  omega

/-- Every counter of the word after a saturating increment (42_counter_table R142, R143). -/
theorem nibGet_nibInc_saturating (v : Word) (n m : Fin 16) :
    (nibGet (nibInc v n).1 m).toNat = if m = n then min ((nibGet v m).toNat + 1) 15 else (nibGet v m).toNat := by
  by_cases below : (nibGet v n).toNat < 15
  · rw [nibGet_nibInc below]
    split
    · subst m; omega
    · rfl
  · simp only [nibInc_of_not_lt below]
    split
    · subst m; omega
    · rfl

/-- With the four words distinct, the updates increment the counters at the four positions and no other (43_commands R170). -/
theorem bumpAll_at (m : Memory) (p : Fin 4 → Position) (rise : ∀ d e, d < e → (p d).word < (p e).word) (q : Position) :
    ((bumpAll m p).1.at q).toNat = if ∃ d, p d = q then min ((m.at q).toNat + 1) 15 else (m.at q).toNat := by
  by_cases touched : ∃ d, q.word = (p d).word
  · obtain ⟨d, word⟩ := touched
    have distinct : Function.Injective fun d => (p d).word := StrictMono.injective fun d e => rise d e
    have hit : (∃ e, p e = q) ↔ q.nibble = (p d).nibble := by
      constructor
      · rintro ⟨e, rfl⟩
        rw [distinct word]
      · intro nibble
        exact ⟨d, show (⟨(p d).word, (p d).nibble⟩ : Position) = q by rw [← word, ← nibble]⟩
    simp only [hit, Memory.at, word, bumpAll_readWord_self m p rise, nibGet_nibInc_saturating]
  · rw [if_neg fun ⟨d, hit⟩ => touched ⟨d, by rw [hit]⟩, Memory.at,
      bumpAll_readWord_other m p fun d word => touched ⟨d, word⟩, Memory.at]

/-- RECORD's increments make every counter `State.recorded` of it (42_counter_table R143). -/
theorem State.counterAt_counted (s : State) (h : Word) (b o : Nat) : (s.counted h).counterAt b o = s.recorded h b o :=
  bumpAll_at s.table _ (s.positions_word_rise h) (positionOf b o)

/-- A counter of the item at 15 is not touched (42_counter_table R142). -/
theorem bump_of_not_lt {acc : Memory × Bool} {p : Position} (full : ¬ (acc.1.at p).toNat < 15) : bump acc p = acc := by
  simp [bump, nibInc_of_not_lt full]

theorem State.counted_of_not_effective {s : State} {h : Word} (saturated : ¬ s.effective h) : s.counted h = s := by
  have full (d : Fin 4) : ¬ (s.table.at (s.positions h d)).toNat < 15 := fun below => saturated ⟨d, below⟩
  simp [State.counted, bumpAll, rows, bump_of_not_lt, full, State.withCounts]

/-! ## The count and the trigger of the aging pass -/

/-- A counter changes exactly if the RECORD is an effective increment (00_scope R16). -/
theorem State.bumpAll_changed_iff_effective (s : State) (h : Word) :
    (bumpAll s.table (s.positions h)).2 = true ↔ s.effective h :=
  bumpAll_changed s.table _ (s.positions_word_rise h)

/-- The count below the threshold has room for one more (10_state R34). -/
theorem State.Inv.toNat_addCount_succ {s : State} (inv : s.Inv) (ready : s.mode = .ready) :
    (s.addCount + 1#64).toNat = s.addCount.toNat + 1 := by
  have below := inv.counted ready
  bv_omega

theorem State.Inv.toNat_addCount_counted {s : State} (inv : s.Inv) (ready : s.mode = .ready) (h : Word) :
    (s.counted h).addCount.toNat = if s.effective h then s.addCount.toNat + 1 else s.addCount.toNat := by
  simp only [State.counted_addCount, State.bumpAll_changed_iff_effective]
  split
  · exact inv.toNat_addCount_succ ready
  · rfl

/-- The pass runs at the effective RECORD that brings the count to the threshold (44_aging R196). -/
theorem State.Inv.ages_iff {s : State} (inv : s.Inv) (ready : s.mode = .ready) (h : Word) :
    s.ages h = true ↔ s.effective h ∧ s.addCount.toNat + 1 = s.sampleSize.toNat := by
  have below := inv.counted ready
  rw [State.ages, Bool.and_eq_true, s.bumpAll_changed_iff_effective, fires, decide_eq_true_eq,
    inv.toNat_addCount_succ ready]
  exact and_congr_right fun _ => by omega

theorem State.Inv.exec_record_of_not_ages {s : State} (inv : s.Inv) (ready : s.mode = .ready) {h : Word}
    (noPass : ¬ (s.effective h ∧ s.addCount.toNat + 1 = s.sampleSize.toNat)) :
    Machine.exec (.record h) s = .next ((s.counted h).respond .ok 0#4) := by
  rw [inv.exec_record ready, if_neg (mt (inv.ages_iff ready h).mp noPass)]

theorem State.Inv.exec_record_of_ages {s : State} (inv : s.Inv) (ready : s.mode = .ready) {h : Word}
    (effective : s.effective h) (reaches : s.addCount.toNat + 1 = s.sampleSize.toNat) :
    Machine.exec (.record h) s = .next ((s.counted h).agingPass.respond .ok 0#4) := by
  rw [inv.exec_record ready, if_pos ((inv.ages_iff ready h).mpr ⟨effective, reaches⟩)]

/-! ## The aging pass -/

/-- The pass halves every counter in use (44_aging R197). -/
theorem State.counterAt_agingPass (s : State) {b o : Nat} (block : b < s.blockCount.toNat) (offset : o < 128) :
    s.agingPass.counterAt b o = s.counterAt b o / 2 :=
  s.table.toNat_counter_resetAll block offset

/-- The odd count of the pass, of the counters that the RECORD's own increments made (44_aging R200). -/
theorem State.resetAll_counted_odd (s : State) (h : Word) :
    (resetAll (s.counted h).table (s.counted h).nwInUse).2 = s.oddRecorded h := by
  refine (resetAll_odd_eq_countP _ s.blockCount.toNat).trans (List.countP_congr fun j _ => ?_)
  rw [← s.counterAt_counted]
  rfl

/-- `AgeCount` without its guard, which truncated subtraction makes redundant (44_aging R198). -/
theorem ageCount_eq (n odd : Nat) : ageCount n odd = (n - odd / 2) / 2 := by
  rw [ageCount]
  omega

/-- The pass leaves the count at `AgeCount`, which fits the register (44_aging R198). -/
theorem State.toNat_addCount_agingPass (s : State) :
    s.agingPass.addCount.toNat = (s.addCount.toNat - (resetAll s.table s.nwInUse).2 / 2) / 2 := by
  rw [State.agingPass_addCount, ageCount_eq, BitVec.toNat_ofNat, Nat.mod_eq_of_lt]
  omega

/-! ## The estimate -/

theorem toNat_nibMin (a b : Nibble) : (nibMin a b).toNat = min a.toNat b.toNat := by
  rw [nibMin, apply_ite BitVec.toNat, Nat.min_def]

/-- The estimate is the greatest lower bound of the item's four counters (43_commands R175). -/
theorem State.le_estimateOf_iff (s : State) (h : Word) (n : Nat) :
    n ≤ (s.estimateOf h).toNat ↔ ∀ d, n ≤ (s.table.at (s.positions h d)).toNat := by
  simp [State.estimateOf, toNat_nibMin, Fin.forall_fin_succ]

theorem State.estimateOf_le (s : State) (h : Word) (d : Fin 4) :
    (s.estimateOf h).toNat ≤ (s.table.at (s.positions h d)).toNat :=
  (s.le_estimateOf_iff h _).mp le_rfl d

/-- One of the four counters is the minimum: above all the four, the estimate would exceed itself. -/
theorem State.estimateOf_attained (s : State) (h : Word) : ∃ d, s.estimateOf h = s.table.at (s.positions h d) := by
  by_contra missed
  have above (d : Fin 4) : (s.estimateOf h).toNat < (s.table.at (s.positions h d)).toNat :=
    (s.estimateOf_le h d).lt_of_ne fun equal => missed ⟨d, BitVec.eq_of_toNat_eq equal⟩
  exact (Nat.lt_irrefl _) ((s.le_estimateOf_iff h _).mpr above)

/-- What RECORD's increments make of a counter of the item (43_commands R170). -/
theorem State.counted_at_positions (s : State) (h : Word) (d : Fin 4) :
    ((s.counted h).table.at (s.positions h d)).toNat = min ((s.table.at (s.positions h d)).toNat + 1) 15 :=
  (bumpAll_at s.table _ (s.positions_word_rise h) _).trans (if_pos ⟨d, rfl⟩)

theorem State.counted_at_ge (s : State) (h : Word) (q : Position) :
    (s.table.at q).toNat ≤ ((s.counted h).table.at q).toNat := by
  have nibble := (s.table.at q).isLt
  rw [State.counted_table, bumpAll_at s.table _ (s.positions_word_rise h)]
  split <;> omega

/-- The increments raise the item's own estimate by 1, saturating at 15 (43_commands R182). -/
theorem State.toNat_estimateOf_counted_self (s : State) (h : Word) :
    ((s.counted h).estimateOf h).toNat = min ((s.estimateOf h).toNat + 1) 15 := by
  refine eq_of_forall_le_iff fun n => ?_
  have own : n ≤ ((s.counted h).estimateOf h).toNat ↔
      ∀ d, n ≤ min ((s.table.at (s.positions h d)).toNat + 1) 15 := by
    simp only [← s.counted_at_positions]
    exact (s.counted h).le_estimateOf_iff h n
  rw [own, le_min_iff, ← Nat.sub_le_iff_le_add, s.le_estimateOf_iff]
  simp only [le_min_iff, Nat.sub_le_iff_le_add, forall_and, forall_const]

/-- The increments lower no estimate (43_commands R182). -/
theorem State.estimateOf_le_counted (s : State) (h g : Word) :
    (s.estimateOf g).toNat ≤ ((s.counted h).estimateOf g).toNat :=
  ((s.counted h).le_estimateOf_iff g _).mpr fun d => (s.estimateOf_le g d).trans (s.counted_at_ge h _)

/-! ## The capacity and the sizes -/

/-- The legal capacities, with CAP_MAX written out (00_scope R6). -/
theorem State.capLegal_iff (s : State) (cap : Int) :
    s.capLegal cap = true ↔ 1 ≤ cap ∧ cap ≤ 32 * 2 ^ s.log2NbMax.val := by
  simp [State.capLegal, capMax, tlMax, nbMax]

/-- LOG2_TL is the least exponent from 5 up whose power reaches the capacity (00_scope R7, 43_commands R166). -/
theorem log2Tl_least {c : Nat} (positive : 1 ≤ c) :
    5 ≤ log2Tl c ∧ c ≤ 2 ^ log2Tl c ∧ (log2Tl c = 5 ∨ 2 ^ (log2Tl c - 1) < c) := by
  have reach : clog2 c ≤ log2Tl c := le_max_right _ _
  refine ⟨le_max_left _ _, (clog2_le_iff positive).mp reach, or_iff_not_imp_left.mpr fun above => ?_⟩
  rw [← Nat.not_le, ← clog2_le_iff positive]
  simp only [log2Tl, log2TlMin] at above ⊢
  omega

/-- `ClearAll` of INIT covers the words below 2^(k-2), which are those in use (10_state R26, 42_counter_table R147). -/
theorem State.readWord_configured (s : State) {k : Nat} (floor : 5 ≤ k) (w : Nat) :
    (s.configured k).table.readWord w = if w < 2 ^ (k - 2) then 0#64 else s.table.readWord w := by
  have words : wordsPerBlock * blockCountOf k = 2 ^ (k - 2) := by
    rw [show k - 2 = 3 + (k - 5) by omega, Nat.pow_add]
    rfl
  rw [State.configured_table, readWord_clearAll, words]

/-! ## The obligations -/

/-- Settles O27: the two errors, and the configuration for LOG2_TL of the capacity. -/
theorem initMeaning : Obligations.InitMeaning := by
  intro cap s
  refine ⟨fun ready => exec_init_of_ready ready cap, fun mode out => exec_init_of_illegal mode ?_, fun mode low high => ?_⟩
  · rw [← Bool.not_eq_true, s.capLegal_iff]
    omega
  · have legal := (s.capLegal_iff cap).mpr ⟨low, high⟩
    obtain ⟨floor, reach, least⟩ := log2Tl_least (c := cap.toNat) (by omega)
    have sized := State.configured_sizedBy floor (log2Tl_bounds legal).2
    have cap_eq : (cap.toNat : Int) = cap := Int.toNat_of_nonneg (by omega)
    refine ⟨log2Tl cap.toNat, _, floor, ?_, ?_, exec_init_of_legal mode legal, rfl, sized.tableLen, sized.blockCount,
      sized.sampleSize, rfl, fun w below => ?_, fun w above => ?_, rfl, rfl⟩
    · rw [← cap_eq]; exact_mod_cast reach
    · rw [← cap_eq]; exact_mod_cast least
    · exact (s.readWord_configured floor w).trans (if_pos below)
    · exact (s.readWord_configured floor w).trans (if_neg (Nat.not_lt.mpr above))

/-- Settles O31: the increments counter by counter, and the count. -/
theorem recordWithoutAging : Obligations.RecordWithoutAging := by
  intro h s inv ready noPass
  exact ⟨_, inv.exec_record_of_not_ages ready noPass, rfl, rfl, fun b o _ _ => s.counterAt_counted h b o,
    inv.toNat_addCount_counted ready h⟩

/-- Settles O32: the pass over the counters and the count that the increments made. -/
theorem recordWithAging : Obligations.RecordWithAging := by
  intro h s inv ready effective reaches
  refine ⟨_, inv.exec_record_of_ages ready effective reaches, rfl, rfl, fun b o block offset => ?_, ?_⟩
  · rw [← s.counterAt_counted]
    exact (s.counted h).counterAt_agingPass block offset
  · rw [State.respond_addCount, State.toNat_addCount_agingPass, s.resetAll_counted_odd,
      inv.toNat_addCount_counted ready, if_pos effective, reaches]

/-- Settles O34: no counter changes, so RECORD only responds. -/
theorem saturatedRecordChangesNothing : Obligations.SaturatedRecordChangesNothing := by
  intro h s inv ready full
  have saturated : ¬ s.effective h := by simp [State.effective, full]
  rw [inv.exec_record_of_not_ages ready fun pass => saturated pass.1, State.counted_of_not_effective saturated]
  rfl

/-- Settles O36: the estimate bounds the four counters from below and is one of them. -/
theorem estimateMeaning : Obligations.EstimateMeaning :=
  fun h s => ⟨fun mode => exec_estimate_of_unconfigured mode h, fun inv ready =>
    ⟨s.estimateOf h, inv.exec_estimate ready h, s.estimateOf_le h, s.estimateOf_attained h⟩⟩

/-- Settles O54: the two branches of `clog2`, as the sizes above use it. -/
theorem clogIsTheLeastExponent : Obligations.ClogIsTheLeastExponent :=
  fun _ _ => clog2_le_iff

/-- Settles O55: without a pass the increments are all that RECORD does to the table. -/
theorem recordRaisesItsOwnEstimate : Obligations.RecordRaisesItsOwnEstimate :=
  fun h s inv ready noPass =>
    ⟨_, inv.exec_record_of_not_ages ready noPass, s.toNat_estimateOf_counted_self h⟩

/-- Settles O56: without a pass no counter falls, and so no minimum of four. -/
theorem estimatesNeverFallWithinAnEpoch : Obligations.EstimatesNeverFallWithinAnEpoch :=
  fun h g s inv ready noPass => ⟨_, inv.exec_record_of_not_ages ready noPass, s.estimateOf_le_counted h g⟩

/-- Settles O5: the fetched command is the decoded word, and it runs at the sampled state. -/
theorem busyStepRunsTheDecodedCommand : Obligations.BusyStepRunsTheDecodedCommand := by
  rintro s _ rst kept busy rfl
  exact step_of_busy rst kept busy

/-- Settles O29: the mode check of each of the three commands. -/
theorem wrongModeAnswersErrState : Obligations.WrongModeAnswersErrState :=
  fun _ h cap => ⟨fun mode => ⟨exec_record_of_unconfigured mode h, exec_estimate_of_unconfigured mode h⟩,
    fun ready => exec_init_of_ready ready cap⟩

/-- Settles O37: RSVD3 raises ERR_ILLEGAL whatever the mode. -/
theorem reservedCodeAnswersErrIllegal : Obligations.ReservedCodeAnswersErrIllegal :=
  fun _ _ => rfl

end Sys2Proof.Machine

/-! SUPPORT. The family of the aging pass: what the RECORD that runs the pass leaves of the counters, of the count and of the estimates
(44_aging). -/

namespace Sys2Proof.Machine

/-! ## The counters and the count -/

/-- The RECORD that runs the pass has one next state, so what `recordWithAging` says of one it says of any (44_aging R197). -/
theorem State.Inv.counters_and_count_of_ages {s t : State} (inv : s.Inv) (ready : s.mode = .ready) {h : Word}
    (effective : s.effective h) (reaches : s.addCount.toNat + 1 = s.sampleSize.toNat)
    (answer : Machine.exec (.record h) s = .next t) :
    (∀ b o, b < s.blockCount.toNat → o < 128 → t.counterAt b o = s.recorded h b o / 2) ∧
      t.addCount.toNat = (s.sampleSize.toNat - s.oddRecorded h / 2) / 2 := by
  obtain ⟨u, answer', _, _, counters, count⟩ := recordWithAging h s inv ready effective reaches
  obtain rfl : u = t := by simpa [answer'] using answer
  exact ⟨counters, count⟩

theorem State.recorded_le (s : State) (h : Word) (b o : Nat) : s.recorded h b o ≤ 15 := by
  rw [← s.counterAt_counted]
  exact Nat.le_of_lt_succ (BitVec.isLt _)

/-- No more counters are odd than there are: 128 to a block (20_memory R48). -/
theorem State.oddRecorded_le (s : State) (h : Word) : s.oddRecorded h ≤ 128 * s.blockCount.toNat :=
  List.countP_le_length.trans_eq List.length_range

/-- The threshold is ten for each of a block's 32 columns (10_state R25 to R27). -/
theorem State.SizedBy.sampleSize_eq {s : State} {k : Nat} (sized : s.SizedBy k) :
    s.sampleSize.toNat = 320 * s.blockCount.toNat := by
  have columns : 2 ^ k = 2 ^ (k - 5) * 2 ^ 5 := by rw [← Nat.pow_add, Nat.sub_add_cancel sized.floor]
  rw [sized.sampleSize, sized.blockCount, columns]
  omega

/-! ## The estimates -/

/-- With a legal block count every position of an item is in use, so the pass halves its counter (44_aging R197). -/
theorem State.toNat_at_positions_agingPass {s : State} {k : Nat} (count : s.blockCount.toNat = 2 ^ k) (g : Word)
    (d : Fin 4) :
    (s.agingPass.table.at (s.positions g d)).toNat = (s.table.at (s.positions g d)).toNat / 2 :=
  s.counterAt_agingPass (blockIndex_lt _ count) (Nat.lt_succ_of_le (counterOffset_le _ d))

/-- Halving commutes with the minimum of the four counters: `n` bounds half a counter from below exactly if `2 n` bounds the
counter (44_aging R203). -/
theorem State.toNat_estimateOf_agingPass {s : State} {k : Nat} (count : s.blockCount.toNat = 2 ^ k) (g : Word) :
    (s.agingPass.estimateOf g).toNat = (s.estimateOf g).toNat / 2 := by
  refine eq_of_forall_le_iff fun n => ?_
  have halved : n ≤ (s.agingPass.estimateOf g).toNat ↔ ∀ d, n ≤ (s.table.at (s.positions g d)).toNat / 2 := by
    simp only [← State.toNat_at_positions_agingPass count]
    exact s.agingPass.le_estimateOf_iff g n
  simp only [halved, Nat.le_div_iff_mul_le Nat.two_pos, s.le_estimateOf_iff]

/-! ## The obligations -/

/-- Settles O33: of the 128 counters of each block at most 128 are odd, and the threshold is 320 for each block. -/
theorem agingLeavesTheCountBetweenTwoFifthsAndHalf : Obligations.AgingLeavesTheCountBetweenTwoFifthsAndHalf := by
  intro h s t inv ready effective reaches answer
  obtain ⟨_, count⟩ := inv.counters_and_count_of_ages ready effective reaches answer
  obtain ⟨_, sized⟩ := inv.sized ready
  have odd := s.oddRecorded_le h
  rw [count, sized.sampleSize_eq]
  omega

/-- Settles O57: the pass halves the estimates that the increments made. -/
theorem agingPassHalvesEveryEstimate : Obligations.AgingPassHalvesEveryEstimate := by
  intro h s inv ready effective reaches
  obtain ⟨_, sized⟩ := inv.sized ready
  exact ⟨_, inv.exec_record_of_ages ready effective reaches,
    State.toNat_estimateOf_agingPass (s := s.counted h) sized.blockCount⟩

/-- Settles O58: each counter is half of what the increments left, which is at most 15. -/
theorem noCounterIsSaturatedAfterAging : Obligations.NoCounterIsSaturatedAfterAging := by
  intro h s t inv ready effective reaches answer b o block offset
  obtain ⟨counters, _⟩ := inv.counters_and_count_of_ages ready effective reaches answer
  have ceiling := s.recorded_le h b o
  rw [counters b o block offset]
  omega

end Sys2Proof.Machine

/-! SUPPORT. The family of the exceptions: the cause table as a function of the mode and the command, exec's answer under each cause, and the
priority of the errors (60_exceptions). -/

namespace Sys2Proof.Machine

/-! ## The cause table -/

/-- The status the cause table gives a command (60_exceptions R217), the operation code examined before the mode and the mode
before the capacity (R224). -/
def State.cause (s : State) (i : Instr) : Status :=
  match i, s.mode with
  | .rsvd3 _, _ => .errIllegal
  | .init _, .ready => .errState
  | .init cap, .unconfigured => if s.capLegal cap then .ok else .errCapacity
  | .record _, .unconfigured => .errState
  | .estimate _, .unconfigured => .errState
  | .record _, .ready => .ok
  | .estimate _, .ready => .ok

theorem State.cause_eq_errCapacity_iff (s : State) (i : Instr) :
    s.cause i = .errCapacity ↔
      s.mode = .unconfigured ∧ ∃ cap, i = .init cap ∧ (cap < 1 ∨ 32 * 2 ^ s.log2NbMax.val < cap) := by
  cases i <;> cases mode : s.mode <;> simp [State.cause, mode, State.capLegal_iff]
  case init.unconfigured => omega

theorem State.cause_eq_errState_iff (s : State) (i : Instr) :
    s.cause i = .errState ↔
      (s.mode = .ready ∧ ∃ cap, i = .init cap) ∨ (s.mode = .unconfigured ∧ ∃ h, i = .record h ∨ i = .estimate h) := by
  cases i <;> cases mode : s.mode <;> simp [State.cause, mode]
  case init.unconfigured => split <;> nofun

theorem State.cause_eq_errIllegal_iff (s : State) (i : Instr) : s.cause i = .errIllegal ↔ ∃ arg, i = .rsvd3 arg := by
  cases i <;> cases mode : s.mode <;> simp [State.cause, mode]
  case init.unconfigured => split <;> nofun

/-! ## The answer under each cause -/

/-- A command without a cause of an error that answers does so with OK, and one with such a cause does nothing but the error entry
(60_exceptions R216, R217). -/
theorem exec_cause_cases {i : Instr} {s t : State} (h : exec i s = .next t) :
    (s.cause i = .ok ∧ rspStatus t.rspReg = Status.ok.code) ∨ (s.cause i ≠ .ok ∧ t = s.raiseError (s.cause i)) := by
  cases i with
  | init cap =>
    obtain ⟨mode, e⟩ | ⟨mode, illegal, e⟩ | ⟨mode, legal, e⟩ := execInit_cases cap s <;> rw [exec, e] at h <;> cases h
    · simp [State.cause, mode]
    · simp [State.cause, mode, illegal]
    · simp [State.cause, mode, legal]
  | record x =>
    obtain ⟨mode, e⟩ | ⟨_, _, e⟩ | ⟨mode, _, _, e⟩ | ⟨mode, _, _, _, e⟩ := execRecord_cases x s <;>
      rw [exec, e] at h <;> cases h
    all_goals simp [State.cause, mode]
  | estimate x =>
    obtain ⟨mode, e⟩ | ⟨_, _, e⟩ | ⟨mode, _, e⟩ := execEstimate_cases x s <;> rw [exec, e] at h <;> cases h
    all_goals simp [State.cause, mode]
  | rsvd3 arg =>
    rw [exec, execRsvd3] at h
    cases h
    simp [State.cause]

theorem rspStatus_of_exec {i : Instr} {s t : State} (h : exec i s = .next t) : rspStatus t.rspReg = (s.cause i).code := by
  obtain ⟨ok, status⟩ | ⟨_, rfl⟩ := exec_cause_cases h
  · rw [ok, status]
  · exact rspStatus_rspWord _ _

theorem eq_raiseError_of_exec {i : Instr} {s t : State} (h : exec i s = .next t)
    (error : rspStatus t.rspReg ≠ Status.ok.code) : t = s.raiseError (s.cause i) := by
  obtain ⟨_, status⟩ | ⟨_, entry⟩ := exec_cause_cases h
  · exact absurd status error
  · exact entry

/-- The four codes differ, so the status names its cause (30_encoding R89). -/
theorem Status.code_injective : Function.Injective Status.code := by
  intro a b
  cases a <;> cases b <;> decide

theorem rspStatus_eq_code_iff {i : Instr} {s t : State} (h : exec i s = .next t) (st : Status) :
    rspStatus t.rspReg = st.code ↔ s.cause i = st := by
  rw [rspStatus_of_exec h, Status.code_injective.eq_iff]

/-! ## The obligations -/

/-- Settles O20: the error entry writes the engine and the response register only, with data 0. -/
theorem errorResponseChangesNoState : Obligations.ErrorResponseChangesNoState := by
  intro i s t h error
  obtain rfl := eq_raiseError_of_exec h error
  exact ⟨rfl, rspData_rspWord _ _⟩

/-- Settles O21: each status is raised exactly under its cause, and the error entry keeps the sketch. -/
theorem statusFollowsTheCauseTable : Obligations.StatusFollowsTheCauseTable := by
  intro i s t h
  refine ⟨(rspStatus_eq_code_iff h .errCapacity).trans (s.cause_eq_errCapacity_iff i),
    (rspStatus_eq_code_iff h .errState).trans (s.cause_eq_errState_iff i),
    (rspStatus_eq_code_iff h .errIllegal).trans (s.cause_eq_errIllegal_iff i), fun error => ?_⟩
  rw [eq_raiseError_of_exec h error]
  exact s.respond_sameSketch _ _

/-- Settles O28: INIT answers an illegal capacity without a change of the mode, and the cause table gives the status. -/
theorem illegalCapacityFailsConstruction : Obligations.IllegalCapacityFailsConstruction := by
  intro cap s mode illegal
  have outOfRange : cap < 1 ∨ 32 * 2 ^ s.log2NbMax.val < cap := illegal.imp_left Int.lt_add_one_of_le
  obtain ⟨_, errCapacity, _⟩ := initMeaning cap s
  have answer := errCapacity mode outOfRange
  obtain ⟨statusIff, _⟩ := statusFollowsTheCauseTable _ s _ answer
  exact ⟨_, answer, statusIff.mpr ⟨mode, cap, rfl, outOfRange⟩, mode⟩

/-- Settles O39: RSVD3 looks at no mode, and INIT looks at the mode before the capacity. -/
theorem errorPriorityExamples : Obligations.ErrorPriorityExamples := by
  intro s arg
  obtain ⟨ready, unconfigured, _⟩ := initMeaning 0 s
  exact ⟨fun _ => reservedCodeAnswersErrIllegal arg s, ready, fun mode => unconfigured mode (.inl Int.zero_lt_one)⟩

end Sys2Proof.Machine

/-! SUPPORT. The family of reset and hazards: hardware reset from every state, the quiescence of IDLE, and the independence of every
response and register from the unspecified table contents (70_reset_and_hazards R246 to R248, R261). -/

namespace Sys2Proof.Machine

/-! ## The table at another draw of its unspecified contents

A word that has been written reads the same at every draw (R247), so each operation on such words commutes with a change of the
draw. -/

/-- The same writes over another draw of the unspecified contents (70_reset_and_hazards R247). -/
def Memory.withDraw (m : Memory) (k : Nat) : Memory := { m with draw := k }

/-- A write does not look at the unspecified contents. -/
@[simp] theorem Memory.writeWord_withDraw (m : Memory) (k w : Nat) (v : Word) :
    (m.withDraw k).writeWord w v = (m.writeWord w v).withDraw k :=
  List.foldl_hom (Memory.withDraw · k) fun _ _ => rfl

/-- A word that has been written does not depend on the unspecified contents. -/
theorem Memory.readWord_withDraw {m : Memory} {n w : Nat} (written : m.addresses = List.range (8 * n)) (inUse : w < n)
    (k : Nat) : (m.withDraw k).readWord w = m.readWord w := by
  refine wordOf_congr fun j hj => Memory.readByte_draw_irrelevant written ?_ k
  simp only [byteAddr, bytesPerWord]
  omega

theorem Memory.at_withDraw {m : Memory} {n : Nat} {p : Position} (written : m.addresses = List.range (8 * n)) (inUse : p.word < n)
    (k : Nat) : (m.withDraw k).at p = m.at p := by
  rw [Memory.at, Memory.readWord_withDraw written inUse, Memory.at]

/-- `ClearAll` writes without reading. -/
theorem clearAll_withDraw (m : Memory) (k n : Nat) : clearAll (m.withDraw k) n = (clearAll m n).withDraw k :=
  List.foldl_hom (Memory.withDraw · k) fun m w => m.writeWord_withDraw k w 0#64

/-- `ResetAll` reads only words that have been written (42_counter_table R146). -/
theorem resetAll_withDraw {m : Memory} {n : Nat} (written : m.addresses = List.range (8 * n)) (k : Nat) {j : Nat}
    (inUse : j ≤ n) : resetAll (m.withDraw k) j = (resetAll m j).map (·.withDraw k) id := by
  induction j with
  | zero => rfl
  | succ j ih =>
    have word := Memory.readWord_withDraw (resetAll_addresses written (k := j) (by omega)) inUse k
    rw [resetAll_succ, ih (by omega), resetAll_succ]
    simp only [resetWord, Prod.map, word, Memory.writeWord_withDraw, id]

/-- One row of RECORD's loop reads only its own word. -/
theorem bump_withDraw {acc : Memory × Bool} {p : Position} {n : Nat} (written : acc.1.addresses = List.range (8 * n))
    (inUse : p.word < n) (k : Nat) : bump (acc.map (·.withDraw k) id) p = (bump acc p).map (·.withDraw k) id := by
  simp only [bump, Prod.map, Memory.readWord_withDraw written inUse, Memory.writeWord_withDraw]
  split <;> rfl

theorem bump_fold_withDraw {p : Fin 4 → Position} {n : Nat} (inUse : ∀ d, (p d).word < n) (k : Nat) (l : List (Fin 4))
    {acc : Memory × Bool} (written : acc.1.addresses = List.range (8 * n)) :
    l.foldl (fun acc d => bump acc (p d)) (acc.map (·.withDraw k) id) =
      (l.foldl (fun acc d => bump acc (p d)) acc).map (·.withDraw k) id := by
  induction l generalizing acc with
  | nil => rfl
  | cons d l ih =>
    rw [List.foldl_cons, bump_withDraw written (inUse d)]
    exact ih (bump_addresses written (inUse d))

/-- RECORD's four updates read only words that have been written (43_commands R170). -/
theorem bumpAll_withDraw {m : Memory} {p : Fin 4 → Position} {n : Nat} (written : m.addresses = List.range (8 * n))
    (inUse : ∀ d, (p d).word < n) (k : Nat) : bumpAll (m.withDraw k) p = (bumpAll m p).map (·.withDraw k) id :=
  bump_fold_withDraw inUse k rows (acc := (m, false)) written

/-! ## The block at another draw -/

/-- The same state over another draw of the unspecified contents. -/
def State.withDraw (s : State) (k : Nat) : State := { s with table := s.table.withDraw k }

/-- The invariant does not look at the unspecified contents. -/
theorem State.Inv.withDraw {s : State} (inv : s.Inv) (k : Nat) : (s.withDraw k).Inv :=
  ⟨inv.unconfigured, fun ready => (inv.sized ready).imp fun _ sized => sized.congr rfl rfl rfl rfl, inv.counted, inv.inUse,
    inv.answered⟩

theorem State.configured_withDraw (s : State) (k j : Nat) : (s.withDraw k).configured j = (s.configured j).withDraw k := by
  simp only [State.configured, State.withDraw, clearAll_withDraw]

theorem State.Inv.estimateOf_withDraw {s : State} (inv : s.Inv) (ready : s.mode = .ready) (h : Word) (k : Nat) :
    (s.withDraw k).estimateOf h = s.estimateOf h := by
  have counter (d : Fin 4) : (s.table.withDraw k).at (s.positions h d) = s.table.at (s.positions h d) :=
    Memory.at_withDraw inv.inUse (inv.positions_word_lt ready h d) k
  exact congrArg₂ nibMin (congrArg₂ nibMin (counter 0) (counter 1)) (congrArg₂ nibMin (counter 2) (counter 3))

/-- RECORD's updates of an item of a configured block read only words in use. -/
theorem State.Inv.bumpAll_withDraw {s : State} (inv : s.Inv) (ready : s.mode = .ready) (h : Word) (k : Nat) :
    bumpAll (s.withDraw k).table ((s.withDraw k).positions h) =
      (bumpAll s.table (s.positions h)).map (·.withDraw k) id :=
  Machine.bumpAll_withDraw inv.inUse (inv.positions_word_lt ready h) k

theorem State.Inv.counted_withDraw {s : State} (inv : s.Inv) (ready : s.mode = .ready) (h : Word) (k : Nat) :
    (s.withDraw k).counted h = (s.counted h).withDraw k := by
  rw [State.counted, inv.bumpAll_withDraw ready]
  rfl

/-- The trigger of the pass does not look at the unspecified contents. -/
theorem State.Inv.ages_withDraw {s : State} (inv : s.Inv) (ready : s.mode = .ready) (h : Word) (k : Nat) :
    (s.withDraw k).ages h = s.ages h := by
  rw [State.ages, inv.bumpAll_withDraw ready]
  rfl

/-- The pass scans only words in use (44_aging R197). -/
theorem State.agingPass_withDraw {s : State} (written : s.table.addresses = List.range (8 * s.nwInUse)) (k : Nat) :
    (s.withDraw k).agingPass = s.agingPass.withDraw k := by
  have scan : resetAll (s.withDraw k).table (s.withDraw k).nwInUse = _ := resetAll_withDraw written k le_rfl
  rw [State.agingPass, scan]
  rfl

/-! ## The step at another draw -/

/-- A command's answer at another draw differs only in the draw (43_commands R182). -/
theorem State.Inv.exec_withDraw {i : Instr} {s t : State} (inv : s.Inv) (h : Machine.exec i s = .next t) (k : Nat) :
    Machine.exec i (s.withDraw k) = .next (t.withDraw k) := by
  cases i with
  | init cap =>
    obtain ⟨ready, e⟩ | ⟨mode, illegal, e⟩ | ⟨mode, legal, e⟩ := execInit_cases cap s <;>
      rw [Machine.exec, e] at h <;> cases h
    · exact exec_init_of_ready (s := s.withDraw k) ready cap
    · exact exec_init_of_illegal (s := s.withDraw k) mode illegal
    · rw [exec_init_of_legal (s := s.withDraw k) mode legal, s.configured_withDraw]
      rfl
  | record x =>
    cases mode : s.mode with
    | unconfigured =>
      rw [exec_record_of_unconfigured mode] at h
      cases h
      exact exec_record_of_unconfigured (s := s.withDraw k) mode x
    | ready =>
      rw [inv.exec_record mode] at h
      cases h
      rw [(inv.withDraw k).exec_record mode, inv.ages_withDraw mode, inv.counted_withDraw mode,
        State.agingPass_withDraw (inv.counted_addresses mode x)]
      cases s.ages x <;> rfl
  | estimate x =>
    cases mode : s.mode with
    | unconfigured =>
      rw [exec_estimate_of_unconfigured mode] at h
      cases h
      exact exec_estimate_of_unconfigured (s := s.withDraw k) mode x
    | ready =>
      rw [inv.exec_estimate mode] at h
      cases h
      rw [(inv.withDraw k).exec_estimate mode, inv.estimateOf_withDraw mode]
      rfl
  | rsvd3 arg =>
    cases h
    rfl

/-- The ports do not look at the table. -/
theorem State.portEdge_withDraw (s : State) (k : Nat) : (s.withDraw k).portEdge = s.portEdge.withDraw k := by
  change (if s.accepts then _ else if s.transfers then _ else _) = _
  unfold State.portEdge
  split
  · rfl
  · split <;> rfl

theorem step_of_rst {s : State} (rst : s.driven.rst = true) : step s = .next s.resetEdge := by
  simpa [rst] using step_cases s

/-- Only a host that breaks the handshake is refused (30_encoding R79). -/
theorem step_refused_cases {s : State} {r : Refusal} (h : step s = .refused r) :
    s.driven.rst = false ∧ s.handshakeBroken = true ∧ r = .handshakeBroken := by
  obtain ⟨_, e⟩ | ⟨rst, broken, e⟩ | ⟨_, _, _, e⟩ | ⟨_, _, _, e⟩ := step_cases s <;> rw [e] at h
  · cases h
  · cases h; exact ⟨rst, broken, rfl⟩
  · exact (exec_ne_refused _ _ _ h).elim
  · cases h

/-- A step at another draw differs afterwards only in the draw (70_reset_and_hazards R247). -/
theorem State.Inv.step_withDraw {s t : State} (inv : s.Inv) (h : step s = .next t) (n : Nat) :
    ∃ k, step (s.withDraw n) = .next (t.withDraw k) := by
  obtain ⟨rst, e⟩ | ⟨_, _, e⟩ | ⟨rst, kept, busy, e⟩ | ⟨rst, kept, engine, e⟩ := step_cases s <;> rw [e] at h
  · cases h
    exact ⟨n + 1, step_of_rst (s := s.withDraw n) rst⟩
  · cases h
  · exact ⟨n, (step_of_busy (s := s.withDraw n) rst kept busy).trans (inv.sampled.exec_withDraw h n)⟩
  · cases h
    exact ⟨n, (step_of_engine_ne_busy (s := s.withDraw n) rst kept engine).trans (congrArg _ (s.portEdge_withDraw n))⟩

/-! ## The obligations -/

/-- Settles O25: a step taken is taken at every draw, and a refusal is the host's doing at every draw. -/
theorem unspecifiedContentsNeverMatter : Obligations.UnspecifiedContentsNeverMatter := by
  intro s n inv
  refine ⟨fun t h => inv.step_withDraw h n, fun r h => ?_⟩
  obtain ⟨rst, broken, rfl⟩ := step_refused_cases h
  exact step_of_handshakeBroken (s := s.withDraw n) rst broken

/-- Settles O9: the host keeps the handshake, since nothing is presented, and the port waits. -/
theorem idleWithoutCommandIsQuiescent : Obligations.IdleWithoutCommandIsQuiescent := by
  intro s rst presented idle valid
  have kept : s.handshakeBroken = false := by simp [State.handshakeBroken, presented]
  have waits : s.portEdge = s.sampled := by simpa [idle, valid] using portEdge_cases s rst (by simp [idle])
  rw [step_of_engine_ne_busy rst kept (by simp [idle]), waits, State.sampled, valid, ← presented]
  rfl

/-- Settles O11: each field of the state after the reset, whose table is the unspecified contents at the next draw. -/
theorem hardwareResetFromEveryState : Obligations.HardwareResetFromEveryState := by
  intro s rst
  exact ⟨s.resetEdge, step_of_rst rst, rfl, rfl, rfl, rfl, rfl, rfl, rfl, rfl, State.rspValid_of_engine_ne_resp nofun,
    fun released => s.resetEdge.cmdReady_iff.mpr ⟨released, rfl⟩, Nat.succ_ne_self _, Memory.readByte_unspecified _, rfl, rfl⟩

end Sys2Proof.Machine

/-! SUPPORT. The canonical form of the table in every state: each command, and then each step, keeps the listed addresses strictly
rising (log entry 2). -/

namespace Sys2Proof.Machine

/-- RECORD's increments keep the canonical form. -/
theorem State.counted_table_wf {s : State} (canonical : s.table.wf) (h : Word) : (s.counted h).table.wf :=
  bumpAll_wf (s.positions h) canonical

/-- A command writes the table by INIT's clear, RECORD's increments and the pass only, and each keeps the canonical form. -/
theorem exec_table_wf {i : Instr} {s t : State} (canonical : s.table.wf) (h : exec i s = .next t) : t.table.wf := by
  obtain ⟨_, _, rfl⟩ | ⟨_, _, _, _, rfl⟩ | ⟨x, _, _, ⟨_, rfl⟩ | ⟨_, rfl⟩⟩ := exec_next_cases h
  · exact canonical
  · exact clearAll_wf _ canonical
  · exact State.counted_table_wf canonical x
  · exact resetAll_wf _ (State.counted_table_wf canonical x)

/-- Settles O15: hardware reset lists no address, a command keeps the form, and no event at the ports touches the table. -/
theorem stepKeepsTheTableCanonical : Obligations.StepKeepsTheTableCanonical := by
  intro s t canonical h
  obtain ⟨_, rfl⟩ | ⟨_, _, command⟩ | ⟨_, _, rfl⟩ := step_next_cases h
  · exact Memory.unspecified_wf _
  · exact exec_table_wf (s := s.sampled) canonical command
  · rw [s.portEdge_sameSketch.table]
    exact canonical

end Sys2Proof.Machine
